-- ==== Sys2Proof/Word.lean ====
section
/-! DEFINITION. The widths of the hardware's values (spec 00_scope.md R6, R8): bytes, words, the 12-bit address
operand, and the index types of the register file, the keypad and the pixel grid. Everything is unsigned. -/

namespace Sys2Proof

/-- A memory byte, a general register or the delay timer: 8 bits (R6, R8). -/
abbrev Byte := BitVec 8

/-- An instruction word, `PC`, `I` or a stack slot: 16 bits (R6, R8). -/
abbrev Word := BitVec 16

/-- The address operand `nnn`: 12 bits (R71). -/
abbrev Addr := BitVec 12

/-- A register number, the four-bit field `x` or `y` (R22, R71). An out-of-range register cannot be expressed. -/
abbrev RegIx := Fin 16

/-- A key number 0 to 15 (R30, R165). -/
abbrev KeyIx := Fin 16

/-- A call-stack slot number 0 to 15 (R26). -/
abbrev SlotIx := Fin 16

/-- A framebuffer column 0 to 63 (R29, R166). -/
abbrev Column := Fin 64

/-- A framebuffer row 0 to 31 (R29, R166). -/
abbrev Row := Fin 32

end Sys2Proof
end

