-- ==== Sys2Proof/Syntax.lean ====
section
/-! DEFINITION. The abstract syntax: one constructor for each of the fifteen rows of the opcode table (spec 30_encoding.md R75;
spec/opcode_table.json), in the table's order, with the operand fields of R71 as data. The instruction set is closed (R76, R78). -/

namespace Sys2Proof

/-- One instruction. Register fields are indexes, `nnn` and `kk` are the bits of their fields (R73), and the sprite height `n`
is the count of R73 ("`n` is used as a count 0 to 15"), checked by `Instr.wellFormed`. -/
inductive Instr where
  /-- `00E0` `CLS` (R130). -/
  | cls
  /-- `00EE` `RET` (R110). -/
  | ret
  /-- `1nnn` `JP addr` (R111). -/
  | jp (nnn : Addr)
  /-- `2nnn` `CALL addr` (R112). -/
  | call (nnn : Addr)
  /-- `3xkk` `SE Vx,byte` (R113). -/
  | seByte (x : RegIx) (kk : Byte)
  /-- `4xkk` `SNE Vx,byte` (R114). -/
  | sneByte (x : RegIx) (kk : Byte)
  /-- `6xkk` `LD Vx,byte` (R120). -/
  | ldByte (x : RegIx) (kk : Byte)
  /-- `7xkk` `ADD Vx,byte` (R121). -/
  | addByte (x : RegIx) (kk : Byte)
  /-- `8xy0` `LD Vx,Vy` (R122). -/
  | ldReg (x y : RegIx)
  /-- `Annn` `LD I,addr` (R123). -/
  | ldI (nnn : Addr)
  /-- `Dxyn` `DRW Vx,Vy,n` (R131). -/
  | drw (x y : RegIx) (n : Nat)
  /-- `ExA1` `SKNP Vx` (R150). -/
  | sknp (x : RegIx)
  /-- `Fx15` `LD DT,Vx` (R124). -/
  | ldDt (x : RegIx)
  /-- `Fx1E` `ADD I,Vx` (R125). -/
  | addI (x : RegIx)
  /-- `Fx0A` `LD Vx,K` (R151). -/
  | ldKey (x : RegIx)
  deriving DecidableEq, Repr

end Sys2Proof
end

