-- ==== Sys2Proof/WellFormed.lean ====
section
/-! DEFINITION. Which terms of `Instr` stand for an instruction the hardware has: those whose operands fit their fields
(spec 30_encoding.md R71). The register, address and byte operands fit by their types; the sprite height is the one operand
written as a plain count, and R71 and R131 give it the range 0 to 15. -/

namespace Sys2Proof

/-- Every operand lies in the range of its field (R71). -/
def Instr.wellFormed : Instr → Bool
  | .cls => true
  | .ret => true
  | .jp _ => true
  | .call _ => true
  | .seByte _ _ => true
  | .sneByte _ _ => true
  | .ldByte _ _ => true
  | .addByte _ _ => true
  | .ldReg _ _ => true
  | .ldI _ => true
  | .drw _ _ n => decide (n ≤ 15)
  | .sknp _ => true
  | .ldDt _ => true
  | .addI _ => true
  | .ldKey _ => true

end Sys2Proof
end

