-- ==== Sys2Proof/Decode.lean ====
section
/-! DEFINITION. The decoder and the encoder (spec 30_encoding.md). The decoder follows R71 (fields) and R76 (the lookup by first
nibble and, where ambiguous, the last nibble or the last byte); the encoder follows the sums of R79's table; `opcodeTable` is the
list of match and mask of R75. Three readings of the spec that the tests and the obligations hold against each other. -/

namespace Sys2Proof

/-! ### Byte order (R52, R70) -/

/-- The number that bytes in memory order stand for, big-endian: the byte at the lower address is the more significant (R52). -/
def bigEndian (bytes : List Byte) : Nat :=
  bytes.foldl (fun acc b => acc * 256 + b.toNat) 0

/-- The instruction word of two bytes in memory order, `M[PC] × 256 + M[PC+1]` (R52). -/
def wordOfBytes (bytes : List Byte) : Word := BitVec.ofNat 16 (bigEndian bytes)

/-- The two bytes of a word in memory order: bits 15 to 8 at the lower address (R52, R70). -/
def bytesOfWord (w : Word) : List Byte := [w.extractLsb' 8 8, w.extractLsb' 0 8]

/-! ### The fields of a word (R71) -/

/-- `n3`, the major selector: `w[15:12]`. -/
def fieldN3 (w : Word) : BitVec 4 := w.extractLsb' 12 4

/-- `x`: `w[11:8]`. -/
def fieldX (w : Word) : RegIx := (w.extractLsb' 8 4).toFin

/-- `y`: `w[7:4]`. -/
def fieldY (w : Word) : RegIx := (w.extractLsb' 4 4).toFin

/-- `n`: `w[3:0]`, as the count or the selector it is. -/
def fieldN (w : Word) : Nat := (w.extractLsb' 0 4).toNat

/-- `nnn`: `w[11:0]`. -/
def fieldNnn (w : Word) : Addr := w.extractLsb' 0 12

/-- `kk`: `w[7:0]`. -/
def fieldKk (w : Word) : Byte := w.extractLsb' 0 8

/-! ### Decoding -/

/-- Why bytes are no instruction, by name. -/
inductive DecodeReject where
  /-- The word selects no row of the opcode table (R77). -/
  | unknownInstruction (w : Word)
  /-- Fewer than the two bytes of an instruction are given (R70). -/
  | truncated (given : Nat)
  deriving DecidableEq, Repr

/-- Decode one word: total, and pure by its type (R72). The first nibble selects; 0x0 is resolved by the whole word, 0x8 by the
last nibble, 0xE and 0xF by the last byte (R76); every other word is unknown (R77). -/
def decodeWord (w : Word) : Except DecodeReject Instr :=
  match (fieldN3 w).toNat with
  | 0x0 =>
    if w = 0x00E0#16 then .ok .cls
    else if w = 0x00EE#16 then .ok .ret
    else .error (.unknownInstruction w)
  | 0x1 => .ok (.jp (fieldNnn w))
  | 0x2 => .ok (.call (fieldNnn w))
  | 0x3 => .ok (.seByte (fieldX w) (fieldKk w))
  | 0x4 => .ok (.sneByte (fieldX w) (fieldKk w))
  | 0x6 => .ok (.ldByte (fieldX w) (fieldKk w))
  | 0x7 => .ok (.addByte (fieldX w) (fieldKk w))
  | 0x8 =>
    if fieldN w = 0 then .ok (.ldReg (fieldX w) (fieldY w))
    else .error (.unknownInstruction w)
  | 0xA => .ok (.ldI (fieldNnn w))
  | 0xD => .ok (.drw (fieldX w) (fieldY w) (fieldN w))
  | 0xE =>
    if fieldKk w = 0xA1#8 then .ok (.sknp (fieldX w))
    else .error (.unknownInstruction w)
  | 0xF =>
    if fieldKk w = 0x15#8 then .ok (.ldDt (fieldX w))
    else if fieldKk w = 0x1E#8 then .ok (.addI (fieldX w))
    else if fieldKk w = 0x0A#8 then .ok (.ldKey (fieldX w))
    else .error (.unknownInstruction w)
  | _ => .error (.unknownInstruction w)

/-- Decode the instruction at the head of a byte stream and give the rest: two bytes, big-endian (R52, R70). Total on any bytes. -/
def decodeBytes : List Byte → Except DecodeReject (Instr × List Byte)
  | hi :: lo :: rest =>
    match decodeWord (wordOfBytes [hi, lo]) with
    | .ok i => .ok (i, rest)
    | .error e => .error e
  | short => .error (.truncated short.length)

/-- The bytes of a row of the opcode table: the low `nbits` bits of `w`, laid out as the hardware stores them (R52). -/
def tableBytes (nbits w : Nat) : List Byte := bytesOfWord (BitVec.ofNat 16 (w % 2 ^ nbits))

/-- What the decoder reads from the word `w` of a table row of `nbits` bits. -/
def decodeTableWord (nbits w : Nat) : Option Instr :=
  match decodeBytes (tableBytes nbits w) with
  | .ok (i, _) => some i
  | .error _ => none

/-! ### Encoding (R79) -/

/-- The number of an instruction's word, by the sums of R79's table. -/
def encodeNat : Instr → Nat
  | .cls => 0x00E0
  | .ret => 0x00EE
  | .jp nnn => 0x1000 + nnn.toNat
  | .call nnn => 0x2000 + nnn.toNat
  | .seByte x kk => 0x3000 + x.val * 256 + kk.toNat
  | .sneByte x kk => 0x4000 + x.val * 256 + kk.toNat
  | .ldByte x kk => 0x6000 + x.val * 256 + kk.toNat
  | .addByte x kk => 0x7000 + x.val * 256 + kk.toNat
  | .ldReg x y => 0x8000 + x.val * 256 + y.val * 16
  | .ldI nnn => 0xA000 + nnn.toNat
  | .drw x y n => 0xD000 + x.val * 256 + y.val * 16 + n
  | .sknp x => 0xE0A1 + x.val * 256
  | .ldDt x => 0xF015 + x.val * 256
  | .addI x => 0xF01E + x.val * 256
  | .ldKey x => 0xF00A + x.val * 256

/-- The word of a well-formed instruction (R79). -/
def encode (i : Instr) : Word := BitVec.ofNat 16 (encodeNat i)

/-- The bytes of a well-formed instruction in memory order (R52, R70). -/
def encodeBytes (i : Instr) : List Byte := bytesOfWord (encode i)

/-! ### The opcode table (R75) -/

/-- A row of R75: the pattern's match and mask, and how many words the row takes. -/
structure OpcodeRow where
  mnemonic : String
  fixed : Word
  mask : Word
  encodings : Nat
  deriving DecidableEq, Repr

/-- A word selects a row when `w AND mask = match` (R75). -/
def OpcodeRow.selects (r : OpcodeRow) (w : Word) : Bool := w &&& r.mask == r.fixed

/-- The row of R75 for each instruction. -/
def rowOf : Instr → OpcodeRow
  | .cls => ⟨"CLS", 0x00E0#16, 0xFFFF#16, 1⟩
  | .ret => ⟨"RET", 0x00EE#16, 0xFFFF#16, 1⟩
  | .jp _ => ⟨"JP_addr", 0x1000#16, 0xF000#16, 4096⟩
  | .call _ => ⟨"CALL_addr", 0x2000#16, 0xF000#16, 4096⟩
  | .seByte _ _ => ⟨"SE_Vx_byte", 0x3000#16, 0xF000#16, 4096⟩
  | .sneByte _ _ => ⟨"SNE_Vx_byte", 0x4000#16, 0xF000#16, 4096⟩
  | .ldByte _ _ => ⟨"LD_Vx_byte", 0x6000#16, 0xF000#16, 4096⟩
  | .addByte _ _ => ⟨"ADD_Vx_byte", 0x7000#16, 0xF000#16, 4096⟩
  | .ldReg _ _ => ⟨"LD_Vx_Vy", 0x8000#16, 0xF00F#16, 256⟩
  | .ldI _ => ⟨"LD_I_addr", 0xA000#16, 0xF000#16, 4096⟩
  | .drw _ _ _ => ⟨"DRW_Vx_Vy_n", 0xD000#16, 0xF000#16, 4096⟩
  | .sknp _ => ⟨"SKNP_Vx", 0xE0A1#16, 0xF0FF#16, 16⟩
  | .ldDt _ => ⟨"LD_DT_Vx", 0xF015#16, 0xF0FF#16, 16⟩
  | .addI _ => ⟨"ADD_I_Vx", 0xF01E#16, 0xF0FF#16, 16⟩
  | .ldKey _ => ⟨"LD_Vx_K", 0xF00A#16, 0xF0FF#16, 16⟩

/-- The fifteen rows of R75, in its order. -/
def opcodeTable : List OpcodeRow :=
  [rowOf .cls, rowOf .ret, rowOf (.jp 0), rowOf (.call 0), rowOf (.seByte 0 0), rowOf (.sneByte 0 0), rowOf (.ldByte 0 0),
    rowOf (.addByte 0 0), rowOf (.ldReg 0 0), rowOf (.ldI 0), rowOf (.drw 0 0 0), rowOf (.sknp 0), rowOf (.ldDt 0),
    rowOf (.addI 0), rowOf (.ldKey 0)]

/-! ### Listing syntax (R79; no effect on the hardware) -/

/-- One hexadecimal digit, in capitals. -/
def hexDigit (n : Nat) : String :=
  match n % 16 with
  | 0 => "0" | 1 => "1" | 2 => "2" | 3 => "3" | 4 => "4" | 5 => "5" | 6 => "6" | 7 => "7"
  | 8 => "8" | 9 => "9" | 10 => "A" | 11 => "B" | 12 => "C" | 13 => "D" | 14 => "E" | _ => "F"

/-- `byte` as a two-digit hexadecimal byte (R79). -/
def byteText (b : Byte) : String := "0x" ++ hexDigit (b.toNat / 16) ++ hexDigit b.toNat

/-- `addr` as a three-digit hexadecimal address (R79). -/
def addrText (a : Addr) : String := "0x" ++ hexDigit (a.toNat / 256) ++ hexDigit (a.toNat / 16) ++ hexDigit a.toNat

/-- `V0` to `VF` (R79). -/
def regText (x : RegIx) : String := "V" ++ hexDigit x.val

/-- The sprite height in decimal (R79). -/
def countText (n : Nat) : String := if n < 10 then hexDigit n else "1" ++ hexDigit (n - 10)

/-- The listing of an instruction: the source's mnemonic and its operands, separated by commas (R79). -/
def Instr.listing : Instr → String
  | .cls => "CLS"
  | .ret => "RET"
  | .jp nnn => "JP " ++ addrText nnn
  | .call nnn => "CALL " ++ addrText nnn
  | .seByte x kk => "SE " ++ regText x ++ ", " ++ byteText kk
  | .sneByte x kk => "SNE " ++ regText x ++ ", " ++ byteText kk
  | .ldByte x kk => "LD " ++ regText x ++ ", " ++ byteText kk
  | .addByte x kk => "ADD " ++ regText x ++ ", " ++ byteText kk
  | .ldReg x y => "LD " ++ regText x ++ ", " ++ regText y
  | .ldI nnn => "LD I, " ++ addrText nnn
  | .drw x y n => "DRW " ++ regText x ++ ", " ++ regText y ++ ", " ++ countText n
  | .sknp x => "SKNP " ++ regText x
  | .ldDt x => "LD DT, " ++ regText x
  | .addI x => "ADD I, " ++ regText x
  | .ldKey x => "LD " ++ regText x ++ ", K"

end Sys2Proof
end

