-- ==== Sys2Proof/Config.lean ====
section
/-! DEFINITION. The implementation parameters of spec 00_scope.md R6 that the definitions of the model name. Every one is fixed
by the spec ("Every size is fixed by the source; none is left to the implementation") and the hardware has no configuration
register and no strap (R7). The spec leaves NO value of a step open (R97), so there is no free value here. The other sizes of R6
are the index types of `Sys2Proof.Word` (`NREGS`, `NKEYS`, `STACK_SLOTS`: `Fin 16`; `FB_WIDTH`: `Fin 64`; `FB_HEIGHT`: `Fin 32`). -/

namespace Sys2Proof.Config

/-- `MEM_SIZE`: 4096 bytes, addresses 0x000 to 0xFFF (R6, R21). -/
abbrev memSize : Nat := 4096

/-- `ORIGIN`: where programs are loaded and where `PC` points after reset (R6, R212). -/
abbrev origin : Nat := 0x200

/-- `MAX_IMAGE`: the longest image `load` accepts, `4096 − 0x200` bytes (R6, R162). -/
abbrev maxImage : Nat := 3584

/-- `SP_RANGE`: the stack pointer's largest value, the stack full (R6, R27). -/
abbrev stackSlots : Nat := 16

/-- `INSN_BYTES`: every instruction is two bytes (R6, R70). -/
abbrev insnBytes : Nat := 2

/-- `SPRITE_WIDTH`: eight pixels for a sprite row byte (R6). -/
abbrev spriteWidth : Nat := 8

/-- What an address that memory does not list reads as: memory is all 0x00 after power-on (R34, R210). -/
abbrev unlistedByte : Byte := 0x00#8

end Sys2Proof.Config
end

