-- ==== Sys2Proof/Machine/State.lean ====
section
/-! DEFINITION. The architectural state: the nine items of spec 10_state.md R20 and nothing else (R32, R33), the five faults of
60_exceptions.md R180, and the state after power-on (R34, R210). Plain data throughout. -/

namespace Sys2Proof.Machine

/-- `M` as the list of its nonzero bytes: (address, byte) pairs, addresses strictly rising, no entry equal to what an unlisted
address reads as (`Config.unlistedByte`), no address outside 0x000 to 0xFFF: `Memory.wf`. -/
abbrev Memory := List Host.Cell

/-- `FB`: 32 rows of 64 pixels, row-major, `true` is on (R29). -/
abbrev Framebuffer := Vector (Vector Bool 64) 32

/-- The state of the CORE (R20). -/
structure State where
  /-- `M`: 4096 bytes (R21). -/
  mem : Memory
  /-- `V[0]` to `V[15]` (R22, R23). -/
  v : Vector Byte 16
  /-- `I`, the index register (R24). -/
  i : Word
  /-- `PC`: during execute, still the address of the instruction being executed (R25, R94). -/
  pc : Word
  /-- `STACK[0]` to `STACK[15]` (R26). -/
  stack : Vector Word 16
  /-- `SP`: the next free slot, 0 to 16 (R27). -/
  sp : Fin 17
  /-- `DT`, the delay timer (R28). -/
  dt : Byte
  /-- `FB`, the framebuffer (R29). -/
  fb : Framebuffer
  /-- `KEYS[0]` to `KEYS[15]`, `true` is pressed (R30). -/
  keys : Vector Bool 16
  deriving DecidableEq, Repr

/-- The five causes of R180 with the `info` of R181 where it varies. A fault is the result of a step or of a load and leaves the
whole state as it was (R95, R188); the outcome `fault` therefore carries no state. All five are the spec's own, so each is exact;
a run that stops at one is SAFE, since the hardware would only repeat it (R97). -/
inductive Fault where
  /-- An address outside memory in the fetch or in the sprite read of `DRW`, a key index above 15 in `SKNP`, a popped address in
  `RET` that cannot be advanced within 16 bits (R182). Safe. -/
  | boundsViolation (info : Nat)
  /-- `CALL` with all sixteen slots in use (R183). Safe. -/
  | stackOverflow
  /-- `RET` with an empty stack (R184). Safe. -/
  | stackUnderflow
  /-- The decode of a word that selects no row of the opcode table (R185). Safe. -/
  | unknownInstruction (w : Word)
  /-- `load` of an image longer than 3584 bytes; never raised by a step (R186). Safe. -/
  | loadTooLarge (length : Nat)
  deriving DecidableEq, Repr

/-- Reasons to answer no meaning at all. -/
inductive Refusal where
  /-- An instruction that has no meaning in the model yet; raised by an arm of `exec` and by nothing else. No arm raises it now:
  every instruction has its meaning. Safe. -/
  | notModelled (mnemonic : String)
  deriving DecidableEq, Repr

/-- The state after power-on: everything zero, `PC = 0x0200` (R34, R210). -/
def State.reset : State where
  mem := []
  v := Vector.replicate 16 0x00#8
  i := 0x0000#16
  pc := 0x0200#16
  stack := Vector.replicate 16 0x0000#16
  sp := 0
  dt := 0x00#8
  fb := Vector.replicate 32 (Vector.replicate 64 false)
  keys := Vector.replicate 16 false

end Sys2Proof.Machine
end

