-- ==== Sys2Proof/Machine/Ops.lean ====
section
/-! DEFINITION. The named operations over memory, registers, stack, framebuffer and program counter that the meanings share
(spec 20_memory.md, 10_state.md, 40_step_cycle.md R94, R126), and the one operation that raises a fault (60_exceptions.md R188). -/

namespace Sys2Proof.Machine

/-! ### Faults -/

/-- Raise a fault: the step is abandoned, nothing is saved, nothing changes and control goes nowhere; the fault is the result
handed to the host (R95, R188). There is no return from a fault: nothing was saved to restore (R189). -/
def raise (f : Fault) : Host.Outcome State Fault Refusal := .fault f

/-- The numeric cause code of a fault (R181; 0 is `Ok`). -/
def Fault.code : Fault → Nat
  | .boundsViolation _ => 1
  | .stackOverflow => 2
  | .stackUnderflow => 3
  | .unknownInstruction _ => 4
  | .loadTooLarge _ => 5

/-- The value recorded with a fault (R181). -/
def Fault.info : Fault → Nat
  | .boundsViolation info => info
  | .stackOverflow => Config.stackSlots
  | .stackUnderflow => 0
  | .unknownInstruction w => w.toNat
  | .loadTooLarge length => length

/-! ### Memory -/

/-- The canonical form of memory: addresses strictly rising, no entry that reads as an unlisted address does, every address inside
memory (R21, R58). -/
abbrev Memory.wf (m : Memory) : Prop :=
  m.Pairwise (fun c d => c.1 < d.1) ∧ ∀ c ∈ m, c.2 ≠ Config.unlistedByte ∧ c.1 < Config.memSize

/-- Read one byte; an unlisted address reads as 0x00, which is what memory holds after power-on (R34). -/
def Memory.read : Memory → Nat → Byte
  | [], _ => Config.unlistedByte
  | c :: rest, a => if c.1 = a then c.2 else Memory.read rest a

/-- Write one byte, keeping the canonical form. -/
def Memory.write : Memory → Nat → Byte → Memory
  | [], a, b => if b = Config.unlistedByte then [] else [(a, b)]
  | c :: rest, a, b =>
    if a < c.1 then (if b = Config.unlistedByte then c :: rest else (a, b) :: c :: rest)
    else if a = c.1 then (if b = Config.unlistedByte then rest else (a, b) :: rest)
    else c :: Memory.write rest a b

/-- The bounds check of an access of `n` bytes at `addr`, in natural-number arithmetic that never wraps (R54, R55, R133): the fault
and its first out-of-range address, or none. An access of no bytes is not checked (R133). -/
def rangeFault (addr n : Nat) : Option Fault :=
  if 0 < n ∧ addr + n - 1 > 0xFFF then
    some (.boundsViolation (if addr > 0xFFF then addr else 0x1000))
  else none

/-- The `n` bytes from `addr` upward, unchecked. -/
def Memory.bytesAt (m : Memory) (addr n : Nat) : List Byte :=
  (List.range n).map fun k => m.read (addr + k)

/-- `MemRead(addr, n)`: the whole range is checked before any byte is used (R54, R57, R133). -/
def memRead (addr n : Nat) (s : State) : Except Fault (List Byte) :=
  match rangeFault addr n with
  | some f => .error f
  | none => .ok (s.mem.bytesAt addr n)

/-- `MemWrite(addr, 1, b)`, bounds-checked; only `load` uses it (R59). -/
def memWrite (addr : Nat) (b : Byte) (m : Memory) : Except Fault Memory :=
  match rangeFault addr 1 with
  | some f => .error f
  | none => .ok (m.write addr b)

/-- Fetch: the big-endian word at `PC`; no alignment check, no side effect (R91, R52, R53). -/
def fetch (s : State) : Except Fault Word :=
  match memRead s.pc.toNat Config.insnBytes s with
  | .ok bytes => .ok (wordOfBytes bytes)
  | .error f => .error f

/-- The word of a table row of `nbits` bits placed where the next fetch reads: its two bytes at `PC` and `PC + 1`. An address above
0xFFF has no byte to place. -/
def placeWord (nbits w : Nat) (s : State) : Memory :=
  (tableBytes nbits w).zipIdx.foldl
    (fun m p => if s.pc.toNat + p.2 < Config.memSize then m.write (s.pc.toNat + p.2) p.1 else m) s.mem

/-! ### Registers and arithmetic -/

/-- `V[x]` (R22). -/
def State.reg (s : State) (x : RegIx) : Byte := s.v[x]

/-- `V[x] <- b`; no register is hardwired (R22). -/
def State.setReg (s : State) (x : RegIx) (b : Byte) : State := { s with v := s.v.set x.val b x.isLt }

/-- The 8-bit unsigned addition modulo 256, no flag (R126 a). -/
def add8 (a b : Byte) : Byte := a + b

/-- The 16-bit unsigned addition modulo 65536, no flag (R126 b). -/
def add16 (a b : Word) : Word := a + b

/-! ### Program counter -/

/-- `PC <- PC + 2` (R94). -/
def advance (s : State) : State := { s with pc := s.pc + 2#16 }

/-- A skip: `PC + 4` when the condition holds, else `PC + 2` (R94). The skipped word is not looked at (R113). -/
def skipIf (cond : Bool) (s : State) : State := { s with pc := if cond then s.pc + 4#16 else s.pc + 2#16 }

/-- `PC <- target`, with no further advance (R94). -/
def jumpTo (target : Word) (s : State) : State := { s with pc := target }

/-! ### Call stack -/

/-- `STACK[k]` (R26). -/
def State.slot (s : State) (k : SlotIx) : Word := s.stack[k]

/-- `STACK[SP] <- a`, `SP <- SP + 1`; none when the stack is full (R26, R27, R112). -/
def pushSlot (a : Word) (s : State) : Option State :=
  if h : s.sp.val < 16 then
    some { s with stack := s.stack.set s.sp.val a h, sp := ⟨s.sp.val + 1, Nat.succ_lt_succ h⟩ }
  else none

/-- `STACK[SP − 1]`; none when the stack is empty (R26, R27, R110). -/
def topSlot (s : State) : Option Word :=
  if h : 0 < s.sp.val then some (s.slot ⟨s.sp.val - 1, by omega⟩) else none

/-- `SP <- SP − 1`; the popped slot keeps its value (R26, R110). -/
def popSlot (s : State) : State := { s with sp := ⟨s.sp.val - 1, by omega⟩ }

/-! ### Framebuffer and keypad -/

/-- `FB[c, r]` as the controller's `get_pixel` reads it (R29, R139). -/
def Framebuffer.pixel (fb : Framebuffer) (c : Column) (r : Row) : Bool := fb[r][c]

/-- The controller's internal `set_pixel` (R139). -/
def Framebuffer.setPixel (fb : Framebuffer) (c : Column) (r : Row) (on : Bool) : Framebuffer :=
  fb.set r.val (fb[r].set c.val on c.isLt) r.isLt

/-- The controller's `clear`: all pixels off (R130, R139). -/
def Framebuffer.clear : Framebuffer := Vector.replicate 32 (Vector.replicate 64 false)

/-- `FB[c, r]` (R29). -/
def State.pixel (s : State) (c : Column) (r : Row) : Bool := Framebuffer.pixel s.fb c r

/-- `is_pressed(k)`: `KEYS[k] = 1`, the level, with no side effect (R152, R153). -/
def State.key (s : State) (k : KeyIx) : Bool := s.keys[k]

end Sys2Proof.Machine
end

