-- ==== Sys2Proof/Machine/Operands.lean ====
section
/-! DEFINITION. The operand forms that are more than a field of the word: the zero-extended address, the key a register names, the
sprite's position and data, and the lowest pressed key (spec 30_encoding.md R73, 43_display.md R132, R133, 44_keypad.md R150, R151). -/

namespace Sys2Proof.Machine

/-- `zext_16(nnn)`, the value written to `PC` or `I` (R73). -/
def zext16 (nnn : Addr) : Word := nnn.setWidth 16

/-- `zext_16(V[x])` of `ADD I,Vx` (R125). -/
def zextReg (x : RegIx) (s : State) : Word := (s.reg x).setWidth 16

/-- `zext_8(k)` of `LD Vx,K` (R151). -/
def zextKey (k : KeyIx) : Byte := BitVec.ofNat 8 k.val

/-- The key that `V[x]` names; a value above 15 is a bounds violation and is not reduced to its low nibble (R150). -/
def keyOperand (x : RegIx) (s : State) : Except Fault KeyIx :=
  if h : (s.reg x).toNat < 16 then .ok ⟨(s.reg x).toNat, h⟩
  else .error (.boundsViolation (s.reg x).toNat)

/-- The sprite's position `(px, py)`, sampled once at the start of the step and not reduced (R132). -/
def spritePosition (x y : RegIx) (s : State) : Nat × Nat := ((s.reg x).toNat, (s.reg y).toNat)

/-- The sprite's `n` row bytes `M[I]` to `M[I + n − 1]`, the whole range checked first (R133). -/
def spriteBytes (n : Nat) (s : State) : Except Fault (List Byte) := memRead s.i.toNat n s

/-- The least `k` with `KEYS[k] = 1`: keys are scanned in index order 0 to 15 (R151). -/
def lowestKey (s : State) : Option KeyIx := (List.finRange 16).find? fun k => s.key k

end Sys2Proof.Machine
end

