-- ==== Sys2Proof/Machine/Control.lean ====
section
/-! DEFINITION. Control transfer (spec 41_control_transfer.md): `RET`, `JP`, `CALL`, `SE`, `SNE`. -/

namespace Sys2Proof.Machine

/-- `RET` (R110): underflow is tested first (R187); the stored value is the call-site address, and control goes one instruction
past it. -/
def execRet (s : State) : Host.Outcome State Fault Refusal :=
  match topSlot s with
  | none => raise .stackUnderflow
  | some a =>
    if a.toNat + 2 > 0xFFFF then raise (.boundsViolation a.toNat)
    else .next (jumpTo (a + 2#16) (popSlot s))

/-- `JP addr` (R111). -/
def execJp (nnn : Addr) (s : State) : Host.Outcome State Fault Refusal :=
  .next (jumpTo (zext16 nnn) s)

/-- `CALL addr` (R112): pushes the full 16-bit address of this instruction. -/
def execCall (nnn : Addr) (s : State) : Host.Outcome State Fault Refusal :=
  match pushSlot s.pc s with
  | none => raise .stackOverflow
  | some t => .next (jumpTo (zext16 nnn) t)

/-- `SE Vx,byte` (R113). -/
def execSeByte (x : RegIx) (kk : Byte) (s : State) : Host.Outcome State Fault Refusal :=
  .next (skipIf (s.reg x == kk) s)

/-- `SNE Vx,byte` (R114). -/
def execSneByte (x : RegIx) (kk : Byte) (s : State) : Host.Outcome State Fault Refusal :=
  .next (skipIf (s.reg x != kk) s)

end Sys2Proof.Machine
end

