-- ==== Sys2Proof/Machine/Flags.lean ====
section
/-! DEFINITION. The one flag of the hardware: `VF` as the collision output of `DRW` (spec 10_state.md R23, 43_display.md R137).
There is no flags register, and no instruction writes a carry or a borrow (R20, R23). -/

namespace Sys2Proof.Machine

/-- `VF`, `V[15]` (R22). -/
def vf : RegIx := 15

/-- `V[15] <- collision`, the 8-bit value 0x01 or 0x00 (R137). -/
def setCollision (collision : Bool) (s : State) : State :=
  s.setReg vf (if collision then 0x01#8 else 0x00#8)

end Sys2Proof.Machine
end

