-- ==== Sys2Proof/Machine/Display.lean ====
section
/-! DEFINITION. The display framebuffer controller (spec 43_display.md): `CLS`, `DRW`, and the controller's own `draw_sprite`. -/

namespace Sys2Proof.Machine

/-- The column a sprite bit falls on: every pixel wraps modulo 64 on its own (R134). -/
def wrapColumn (n : Nat) : Column := Fin.ofNat 64 n

/-- The row a sprite row falls on: modulo 32 (R134). -/
def wrapRow (n : Nat) : Row := Fin.ofNat 32 n

/-- Draw the bits `cs` of one row byte: bit `7 − c` belongs to column `px + c`, the most significant bit leftmost (R134); it is
combined by exclusive-or (R135); a lit pixel under a sprite bit 1 is a collision (R136). -/
def drawBits (px py : Nat) (b : Byte) : List Nat → Framebuffer → Framebuffer × Bool
  | [], fb => (fb, false)
  | c :: cs, fb =>
    let bit := b.getLsbD (7 - c)
    let old := Framebuffer.pixel fb (wrapColumn (px + c)) (wrapRow py)
    let rest := drawBits px py b cs (Framebuffer.setPixel fb (wrapColumn (px + c)) (wrapRow py) (old ^^ bit))
    (rest.1, (bit && old) || rest.2)

/-- The controller's `draw_sprite(x, y, row_byte)`: one row of eight bits, and whether it collided (R139). -/
def drawRow (px py : Nat) (b : Byte) (fb : Framebuffer) : Framebuffer × Bool :=
  drawBits px py b (List.range Config.spriteWidth) fb

/-- `draw_sprite` for every row byte at `(px, py + r)`; the collision is the OR over all rows (R136, R139). -/
def drawRows (px py : Nat) : List Byte → Framebuffer → Framebuffer × Bool
  | [], fb => (fb, false)
  | b :: bs, fb =>
    let row := drawRow px py b fb
    let rest := drawRows px (py + 1) bs row.1
    (rest.1, row.2 || rest.2)

/-- `CLS` (R130). -/
def execCls (s : State) : Host.Outcome State Fault Refusal :=
  .next (advance { s with fb := Framebuffer.clear })

/-- `DRW Vx,Vy,n` (R131): the position is sampled (R132) and the data range checked (R133) before anything is written; `VF` is the
last register effect (R137). -/
def execDrw (x y : RegIx) (n : Nat) (s : State) : Host.Outcome State Fault Refusal :=
  match spriteBytes n s with
  | .error f => raise f
  | .ok bytes =>
    let drawn := drawRows (spritePosition x y s).1 (spritePosition x y s).2 bytes s.fb
    .next (advance (setCollision drawn.2 { s with fb := drawn.1 }))

end Sys2Proof.Machine
end

