-- ==== Sys2Proof/Machine/Keypad.lean ====
section
/-! DEFINITION. The key instructions (spec 44_keypad.md): `SKNP`, `LD Vx,K`. -/

namespace Sys2Proof.Machine

/-- `SKNP Vx` (R150). -/
def execSknp (x : RegIx) (s : State) : Host.Outcome State Fault Refusal :=
  match keyOperand x s with
  | .error f => raise f
  | .ok k => .next (skipIf (!s.key k) s)

/-- `LD Vx,K` (R151): with no key pressed the step is a stall, a next state equal to this one. -/
def execLdKey (x : RegIx) (s : State) : Host.Outcome State Fault Refusal :=
  match lowestKey s with
  | none => .next s
  | some k => .next (advance (s.setReg x (zextKey k)))

end Sys2Proof.Machine
end

