-- ==== Sys2Proof/Machine/Register.lean ====
section
/-! DEFINITION. Register, index and timer operations (spec 42_register_ops.md): `LD Vx,byte`, `ADD Vx,byte`, `LD Vx,Vy`,
`LD I,addr`, `LD DT,Vx`, `ADD I,Vx`. None of them faults at execute and none writes a flag. -/

namespace Sys2Proof.Machine

/-- `LD Vx,byte` (R120). -/
def execLdByte (x : RegIx) (kk : Byte) (s : State) : Host.Outcome State Fault Refusal :=
  .next (advance (s.setReg x kk))

/-- `ADD Vx,byte` (R121): modulo 256; `VF` is not written. -/
def execAddByte (x : RegIx) (kk : Byte) (s : State) : Host.Outcome State Fault Refusal :=
  .next (advance (s.setReg x (add8 (s.reg x) kk)))

/-- `LD Vx,Vy` (R122). -/
def execLdReg (x y : RegIx) (s : State) : Host.Outcome State Fault Refusal :=
  .next (advance (s.setReg x (s.reg y)))

/-- `LD I,addr` (R123). -/
def execLdI (nnn : Addr) (s : State) : Host.Outcome State Fault Refusal :=
  .next (advance { s with i := zext16 nnn })

/-- `LD DT,Vx` (R124): `PC` advances, the repository's omission is a defect not reproduced (90_conflicts.md C7). -/
def execLdDt (x : RegIx) (s : State) : Host.Outcome State Fault Refusal :=
  .next (advance { s with dt := s.reg x })

/-- `ADD I,Vx` (R125): modulo 65536, not masked and not checked here. -/
def execAddI (x : RegIx) (s : State) : Host.Outcome State Fault Refusal :=
  .next (advance { s with i := add16 s.i (zextReg x s) })

end Sys2Proof.Machine
end

