-- ==== Sys2Proof/Machine/Step.lean ====
section
/-! DEFINITION. One step: fetch, decode, execute (spec 40_step_cycle.md R90 to R97), at most one fault, in that order (R187). -/

namespace Sys2Proof.Machine

/-- One instruction cycle (R90). A fault leaves the state as it was, so the outcome carries none (R95). -/
def step (s : State) : Host.Outcome State Fault Refusal :=
  match fetch s with
  | .error f => raise f
  | .ok w =>
    match decodeWord w with
    | .error _ => raise (.unknownInstruction w)
    | .ok i => exec i s

/-- `s` with the instruction word of a table row stored where the next step fetches. -/
def State.withFetchWord (s : State) (nbits w : Nat) : State := { s with mem := placeWord nbits w s }

end Sys2Proof.Machine
end

