-- ==== Sys2Proof/Machine/HostOps.lean ====
section
/-! DEFINITION. The host operations (spec 45_host_operations.md R160 to R169, 70_reset_and_hazards.md R210, R211): the only ways the
outside world reaches the CORE. Each is atomic and they form one total order (R161), so a run is a list of them. -/

namespace Sys2Proof.Machine

/-- An operation of the host (R160). The arguments are exactly as wide as the spec's: a key index of four bits, a column of six and
a row of five (R165, R166). -/
inductive HostOp where
  /-- Power-on (R210). -/
  | powerOn
  /-- `reset` (R211). -/
  | reset
  /-- `load` (R162). -/
  | load (bytes : List Byte)
  /-- `step` (R163). -/
  | step
  /-- `tick_timer` (R164). -/
  | tickTimer
  /-- `set_key` (R165). -/
  | setKey (k : KeyIx) (pressed : Bool)
  /-- `get_pixel` (R166). -/
  | getPixel (c : Column) (r : Row)
  /-- `dump` (R167). -/
  | dump
  deriving DecidableEq, Repr

/-- What `dump` returns: `PC`, `V`, `STACK`, `SP`, and not `I`, `DT`, `M`, `FB` or `KEYS` (R167). -/
structure Dump where
  pc : Word
  v : Vector Byte 16
  stack : Vector Word 16
  sp : Fin 17
  deriving DecidableEq, Repr

/-- What an operation returns to the host (R168's table). -/
inductive Response where
  /-- The operation returns nothing. -/
  | nothing
  /-- `Ok`, the result of a step or a load (R96, R181). -/
  | ok
  /-- `Fault(cause, info)`, the result of a step or a load (R96, R181). -/
  | fault (f : Fault)
  /-- The pixel that `get_pixel` reads. -/
  | pixel (on : Bool)
  /-- The record that `dump` reads. -/
  | dumped (d : Dump)
  /-- A step that the model refused; no step is (every instruction has a meaning). -/
  | refused (r : Refusal)
  deriving DecidableEq, Repr

/-- The numeric result code of a step or load (R181): 0 for `Ok`, the cause's code for a fault; none for the others. -/
def Response.code : Response → Option Nat
  | .ok => some 0
  | .fault f => some f.code
  | .nothing => none
  | .pixel _ => none
  | .dumped _ => none
  | .refused _ => none

/-- `reset`: everything as after power-on, but `M` is left alone (R211). -/
def resetOp (s : State) : State := { State.reset with mem := s.mem }

/-- Write the bytes at rising addresses from `addr`, one `MemWrite` each (R162). -/
def writeBytes (addr : Nat) : List Byte → Memory → Except Fault Memory
  | [], m => .ok m
  | b :: bs, m =>
    match memWrite addr b m with
    | .ok m' => writeBytes (addr + 1) bs m'
    | .error f => .error f

/-- `load`: the whole image is checked against the end of memory before any byte is written (R59, R162). -/
def loadOp (bytes : List Byte) (s : State) : Except Fault State :=
  if bytes.length > Config.maxImage then .error (.loadTooLarge bytes.length)
  else
    match writeBytes Config.origin bytes s.mem with
    | .ok m => .ok { s with mem := m }
    | .error f => .error f

/-- `tick_timer`: one down, stopping at zero (R164). -/
def tickOp (s : State) : State := { s with dt := if s.dt = 0x00#8 then s.dt else s.dt - 0x01#8 }

/-- `set_key` (R165). -/
def setKeyOp (k : KeyIx) (pressed : Bool) (s : State) : State :=
  { s with keys := s.keys.set k.val pressed k.isLt }

/-- `dump` (R167). -/
def dumpOp (s : State) : Dump := ⟨s.pc, s.v, s.stack, s.sp⟩

/-- The whole frame as one row-major vector: pixel `(c, r)` at index `r × 64 + c` (R29, R166). -/
def frame (s : State) : Vector Bool (32 * 64) := s.fb.flatten

/-- One operation: the state after it and what it returns. A fault leaves the state as it was (R95, R162, R188). -/
def HostOp.perform : HostOp → State → State × Response
  | .powerOn, _ => (State.reset, .nothing)
  | .reset, s => (resetOp s, .nothing)
  | .load bytes, s =>
    match loadOp bytes s with
    | .ok t => (t, .ok)
    | .error f => (s, .fault f)
  | .step, s =>
    match Sys2Proof.Machine.step s with
    | .next t => (t, .ok)
    | .fault f => (s, .fault f)
    | .refused r => (s, .refused r)
  | .tickTimer, s => (tickOp s, .nothing)
  | .setKey k pressed, s => (setKeyOp k pressed s, .nothing)
  | .getPixel c r, s => (s, .pixel (s.pixel c r))
  | .dump, s => (s, .dumped (dumpOp s))

/-- A run: the host's operations one after the other (R161), oldest first. -/
def performAll : List HostOp → State → State
  | [], s => s
  | op :: ops, s => performAll ops (op.perform s).1

/-- What the operations of a run return, oldest first. -/
def responses : List HostOp → State → List Response
  | [], _ => []
  | op :: ops, s => (op.perform s).2 :: responses ops (op.perform s).1

end Sys2Proof.Machine
end

