-- ==== Sys2Proof/Safety.lean ====
section
/-! DEFINITION. The terms that claims about the machine use: what an instruction leaves alone, the invariant of every reachable
state, the table of program-counter outcomes, the sprite's pixels, and when a program counts as finished. -/

namespace Sys2Proof.Machine

/-! ### Frames -/

/-- The nine state items (spec 10_state.md R20). -/
inductive Item where
  | mem | v | i | pc | stack | sp | dt | fb | keys
  deriving DecidableEq, Repr

/-- The item reads in `t` as it reads in `s`: every byte of memory, every register, every slot, every pixel, every key. -/
def Keeps : Item → State → State → Prop
  | .mem, s, t => ∀ a : Nat, t.mem.read a = s.mem.read a
  | .v, s, t => ∀ x : RegIx, t.reg x = s.reg x
  | .i, s, t => t.i = s.i
  | .pc, s, t => t.pc = s.pc
  | .stack, s, t => ∀ k : SlotIx, t.slot k = s.slot k
  | .sp, s, t => t.sp = s.sp
  | .dt, s, t => t.dt = s.dt
  | .fb, s, t => ∀ (c : Column) (r : Row), t.pixel c r = s.pixel c r
  | .keys, s, t => ∀ k : KeyIx, t.key k = s.key k

/-- Every item outside the list reads as before. -/
def KeepsAllBut (written : List Item) (s t : State) : Prop := ∀ it : Item, it ∉ written → Keeps it s t

/-- Every general register but `V[x]` reads as before. -/
def SameRegsBut (x : RegIx) (s t : State) : Prop := ∀ y : RegIx, y ≠ x → t.reg y = s.reg y

/-- Two states that agree on everything but the delay timer. -/
def AgreeButTimer (s t : State) : Prop := { s with dt := t.dt } = t

/-! ### The invariant of reachable states -/

/-- What holds of every state from power-on: memory is in canonical form, the reserved region reads zero (20_memory.md R58), every
stack slot holds a call-site address that could be fetched from, and `PC` is at most 0x1002 (40_step_cycle.md R99). -/
structure Inv (s : State) : Prop where
  memory : s.mem.wf
  reserved : ∀ a : Nat, a < Config.origin → s.mem.read a = 0x00#8
  slots : ∀ k : SlotIx, (s.slot k).toNat ≤ 0xFFE
  counter : s.pc.toNat ≤ 0x1002

/-! ### Program-counter outcomes -/

/-- `PC` after a completed step of instruction `i` from `s` to `t`: the table of 40_step_cycle.md R94, in natural numbers, so that no
outcome wraps. -/
def PcOutcome (i : Instr) (s t : State) : Prop :=
  match i with
  | .cls => t.pc.toNat = s.pc.toNat + 2
  | .ret => ∀ k : SlotIx, k.val + 1 = s.sp.val → t.pc.toNat = (s.slot k).toNat + 2
  | .jp nnn => t.pc.toNat = nnn.toNat
  | .call nnn => t.pc.toNat = nnn.toNat
  | .seByte x kk => t.pc.toNat = if s.reg x = kk then s.pc.toNat + 4 else s.pc.toNat + 2
  | .sneByte x kk => t.pc.toNat = if s.reg x ≠ kk then s.pc.toNat + 4 else s.pc.toNat + 2
  | .ldByte _ _ => t.pc.toNat = s.pc.toNat + 2
  | .addByte _ _ => t.pc.toNat = s.pc.toNat + 2
  | .ldReg _ _ => t.pc.toNat = s.pc.toNat + 2
  | .ldI _ => t.pc.toNat = s.pc.toNat + 2
  | .drw _ _ _ => t.pc.toNat = s.pc.toNat + 2
  | .sknp x =>
    ∀ k : KeyIx, k.val = (s.reg x).toNat →
      t.pc.toNat = if s.key k = false then s.pc.toNat + 4 else s.pc.toNat + 2
  | .ldDt _ => t.pc.toNat = s.pc.toNat + 2
  | .addI _ => t.pc.toNat = s.pc.toNat + 2
  | .ldKey _ => t.pc.toNat = if ∃ k : KeyIx, s.key k = true then s.pc.toNat + 2 else s.pc.toNat

/-! ### Sprites -/

/-- The sprite of `DRW Vx,Vy,n` covers pixel `(c, r)` with a bit 1: some row `k` and some bit column `j` of the sprite map to it
(43_display.md R134; the most significant bit is `j = 0`). -/
def SpriteCovers (s : State) (x y : RegIx) (n : Nat) (c : Column) (r : Row) : Prop :=
  ∃ k : Nat, k < n ∧ ∃ j : Nat, j < 8 ∧
    c.val = ((s.reg x).toNat + j) % 64 ∧ r.val = ((s.reg y).toNat + k) % 32 ∧
    (s.mem.read (s.i.toNat + k)).getLsbD (7 - j) = true

/-- The sprite data of `n` rows from `I` lie inside memory, or there are none (43_display.md R133). -/
def SpriteInMemory (s : State) (n : Nat) : Prop := n = 0 ∨ s.i.toNat + n - 1 ≤ 0xFFF

/-! ### Runs -/

/-- The word at `PC` and `PC + 1`, big-endian (20_memory.md R52). -/
def wordAtPc (s : State) : Word :=
  BitVec.ofNat 16 ((s.mem.read s.pc.toNat).toNat * 256 + (s.mem.read (s.pc.toNat + 1)).toNat)

/-- A step from here neither faults nor is refused. -/
def SafeStep (s : State) : Prop := ∃ t : State, step s = .next t

/-- The program is finished: the current instruction is `JP` to its own address (45_host_operations.md R169). -/
def Finished (s : State) : Prop :=
  s.pc.toNat ≤ 0xFFE ∧ ∃ nnn : Addr, decodeWord (wordAtPc s) = .ok (.jp nnn) ∧ nnn.toNat = s.pc.toNat

/-- `CALL`s to the given targets, one after the other, with no other instruction between. -/
def callChain : List Addr → State → Host.Outcome State Fault Refusal
  | [], s => .next s
  | target :: rest, s =>
    match exec (.call target) s with
    | .next t => callChain rest t
    | .fault f => .fault f
    | .refused r => .refused r

/-- What the host last wrote for key `k` in a run since the latest `reset` or power-on, starting from a state in which the key
reads `now` (44_keypad.md R153). -/
def lastWritten (k : KeyIx) : List HostOp → Bool → Bool
  | [], now => now
  | op :: ops, now =>
    lastWritten k ops
      (match op with
        | .powerOn => false
        | .reset => false
        | .setKey k' pressed => if k' = k then pressed else now
        | .load _ => now
        | .step => now
        | .tickTimer => now
        | .getPixel _ _ => now
        | .dump => now)

end Sys2Proof.Machine
end

