-- ==== Sys2Proof/Certificates/Slice0/Obligations.lean ====
section
/-! DEFINITION. The statements about the machine. Each docstring names the rule of the spec it formalises; where a clause rests on a
choice that the spec marks as its own (92_eei_decisions.md) or on general knowledge (93_implementation_defined.md), the docstring says
so and names the log entry. -/

open Sys2Proof Sys2Proof.Machine

/-! ### Reset and the invariant -/

/-- 10_state.md R34, 70_reset_and_hazards.md R210: after power-on all state is zero but `PC = 0x0200`. That power-on and the first reset
are one event, so that `PC` is not 0, is the spec's own decision (log entry 3). -/
def Obligations.PowerOnStateIsZeroButPc : Prop :=
  (∀ a : Nat, State.reset.mem.read a = 0x00#8) ∧ (∀ x : RegIx, State.reset.reg x = 0x00#8) ∧ State.reset.i = 0x0000#16 ∧
    State.reset.pc = 0x0200#16 ∧ (∀ k : SlotIx, State.reset.slot k = 0x0000#16) ∧ State.reset.sp.val = 0 ∧
    State.reset.dt = 0x00#8 ∧ (∀ (c : Column) (r : Row), State.reset.pixel c r = false) ∧
    (∀ k : KeyIx, State.reset.key k = false)

/-- The invariant of reachable states holds after power-on. -/
def Obligations.PowerOnStateSatisfiesInvariant : Prop := Inv State.reset

/-- 40_step_cycle.md R99, 20_memory.md R56, R58: every completed step keeps the memory canonical, the reserved region zero, every
stack slot a fetchable call-site address, and `PC` at most 0x1002. -/
def Obligations.StepKeepsInvariant : Prop := ∀ s t : State, Inv s → step s = .next t → Inv t

/-- 20_memory.md R58 ("they stay 0x00 for ever"), 40_step_cycle.md R99, 45_host_operations.md R160: whatever the host does, in whatever
order, the invariant stays. -/
def Obligations.EveryHostRunKeepsInvariant : Prop :=
  ∀ (ops : List HostOp) (s : State), Inv s → Inv (performAll ops s)

/-- 40_step_cycle.md R99, 41_control_transfer.md R110: in no state that meets the invariant does `RET` raise its bounds violation; its one
fault there is the underflow. -/
def Obligations.RetFaultsOnlyByUnderflowWhenReachable : Prop :=
  ∀ (s : State) (f : Fault), Inv s → exec .ret s = .fault f → f = .stackUnderflow

/-! ### The step -/

/-- 40_step_cycle.md R90 to R93: when the two bytes at `PC` decode to a well-formed instruction, the step is that instruction's execution
on the same state, `PC` still at the instruction's own address. -/
def Obligations.StepRunsTheDecodedInstruction : Prop :=
  ∀ (s : State) (i : Instr), s.pc.toNat ≤ 0xFFE →
    decodeBytes [s.mem.read s.pc.toNat, s.mem.read (s.pc.toNat + 1)] = .ok (i, []) → i.wellFormed = true → step s = exec i s

/-- 40_step_cycle.md R91: the fetch reads the two bytes at `PC`, big-endian, at any address up to 0xFFE, odd ones included, and raises
`BoundsViolation` exactly above. -/
def Obligations.FetchReadsTwoBytesOrFaults : Prop :=
  ∀ s : State,
    (s.pc.toNat ≤ 0xFFE →
      fetch s = .ok (BitVec.ofNat 16 ((s.mem.read s.pc.toNat).toNat * 256 + (s.mem.read (s.pc.toNat + 1)).toNat))) ∧
    (s.pc.toNat > 0xFFE →
      ∃ info : Nat, fetch s = .error (.boundsViolation info) ∧ step s = .fault (.boundsViolation info))

/-- 60_exceptions.md R185, 30_encoding.md R77: a word that selects no row of the opcode table faults as the unknown instruction, with
nothing changed. That the word is the recorded value is the spec's own decision (log entry 2). -/
def Obligations.UnknownWordFaultsAndChangesNothing : Prop :=
  ∀ s : State, s.pc.toNat ≤ 0xFFE → (∀ row ∈ opcodeTable, row.selects (wordAtPc s) = false) →
    HostOp.step.perform s = (s, .fault (.unknownInstruction (wordAtPc s)))

/-- 60_exceptions.md R181, R187: a step faults with `f` exactly in the cases of the table, and in no other. The recorded values, the check
of a sprite's whole range, the key index bound, the `RET` bound, the stack's capacity and the unchecked odd `PC` are the spec's own decisions
(log entries 2, 6, 7, 9, 11, 16). -/
def Obligations.StepFaultsExactlyByTheTable : Prop :=
  ∀ (s : State) (f : Fault), step s = .fault f ↔
    (s.pc.toNat > 0xFFE ∧ f = .boundsViolation (if s.pc.toNat > 0xFFF then s.pc.toNat else 0x1000)) ∨
    (s.pc.toNat ≤ 0xFFE ∧
      (((∀ row ∈ opcodeTable, row.selects (wordAtPc s) = false) ∧ f = .unknownInstruction (wordAtPc s)) ∨
        (∃ (x y : RegIx) (n : Nat), decodeWord (wordAtPc s) = .ok (.drw x y n) ∧ 0 < n ∧ s.i.toNat + n - 1 > 0xFFF ∧
          f = .boundsViolation (if s.i.toNat > 0xFFF then s.i.toNat else 0x1000)) ∨
        (∃ x : RegIx, decodeWord (wordAtPc s) = .ok (.sknp x) ∧ (s.reg x).toNat > 0x0F ∧
          f = .boundsViolation (s.reg x).toNat) ∨
        (∃ k : SlotIx, decodeWord (wordAtPc s) = .ok .ret ∧ k.val + 1 = s.sp.val ∧ (s.slot k).toNat ≥ 0xFFFE ∧
          f = .boundsViolation (s.slot k).toNat) ∨
        (decodeWord (wordAtPc s) = .ok .ret ∧ s.sp.val = 0 ∧ f = .stackUnderflow) ∨
        (∃ nnn : Addr, decodeWord (wordAtPc s) = .ok (.call nnn) ∧ s.sp.val = 16 ∧ f = .stackOverflow)))

/-- 40_step_cycle.md R94: the complete list of `PC` outcomes of a step, in natural numbers, the faulting steps included. -/
def Obligations.StepSetsPcByTheTable : Prop :=
  ∀ (s : State) (i : Instr),
    (∀ t : State, step s = .next t → decodeWord (wordAtPc s) = .ok i → PcOutcome i s t) ∧
    (∀ f : Fault, step s = .fault f → (HostOp.step.perform s).1.pc = s.pc)

/-- 40_step_cycle.md R95, 60_exceptions.md R188: an operation that returns a fault leaves the whole state as it was. -/
def Obligations.FaultLeavesTheWholeState : Prop :=
  ∀ (op : HostOp) (s : State) (f : Fault), (op.perform s).2 = .fault f → (op.perform s).1 = s

/-- 40_step_cycle.md R96, R97: the step is total: it completes exactly when it does not fault, and it is never refused. -/
def Obligations.StepCompletesOrFaults : Prop :=
  ∀ s : State, (SafeStep s ↔ ∀ f : Fault, step s ≠ .fault f) ∧ ∀ r : Refusal, step s ≠ .refused r

/-- 20_memory.md R56, 10_state.md R31: no step writes memory or the keys. -/
def Obligations.StepWritesNoMemoryAndNoKey : Prop :=
  ∀ s t : State, step s = .next t → t.mem = s.mem ∧ t.keys = s.keys

/-- 10_state.md R22, R24, R26, R27, R28, R29: the writers of each state item: the framebuffer only `CLS` and `DRW`, the stack slots only
`CALL`, `SP` only `CALL` and `RET`, `DT` only `LD DT,Vx`, `I` only `LD I,addr` and `ADD I,Vx`, the registers only `LD Vx,byte`,
`ADD Vx,byte`, `LD Vx,Vy`, `LD Vx,K` and `DRW`. That `RET` is no writer of the slots, so that the popped one keeps its value, is the
spec's own decision D15 (log entry 10). -/
def Obligations.EachItemHasOnlyItsWriters : Prop :=
  ∀ (i : Instr) (s t : State), exec i s = .next t →
    (i ≠ .cls → (∀ x y n, i ≠ .drw x y n) → Keeps .fb s t) ∧
    ((∀ nnn, i ≠ .call nnn) → Keeps .stack s t) ∧
    (i ≠ .ret → (∀ nnn, i ≠ .call nnn) → Keeps .sp s t) ∧
    ((∀ x, i ≠ .ldDt x) → Keeps .dt s t) ∧
    ((∀ nnn, i ≠ .ldI nnn) → (∀ x, i ≠ .addI x) → Keeps .i s t) ∧
    ((∀ x kk, i ≠ .ldByte x kk) → (∀ x kk, i ≠ .addByte x kk) → (∀ x y, i ≠ .ldReg x y) → (∀ x, i ≠ .ldKey x) →
      (∀ x y n, i ≠ .drw x y n) → Keeps .v s t)

/-- 40_step_cycle.md R98: a step that completes leaves the whole state unchanged exactly at a `JP` to its own address and at an `LD Vx,K` with
no key pressed. -/
def Obligations.StepFixedPointsAreJumpToSelfAndKeyStall : Prop :=
  ∀ s : State, step s = .next s ↔
    Finished s ∨
      (s.pc.toNat ≤ 0xFFE ∧ (∃ x : RegIx, decodeWord (wordAtPc s) = .ok (.ldKey x)) ∧ ∀ k : KeyIx, s.key k = false)

/-- 60_exceptions.md R189, 40_step_cycle.md R97: a fault repeats, with the same cause and value, whatever the host does short of power-on,
`reset` and `load`. -/
def Obligations.FaultPersistsUntilResetOrLoad : Prop :=
  ∀ (ops : List HostOp) (s : State) (f : Fault),
    (∀ op ∈ ops, op ≠ .powerOn ∧ op ≠ .reset ∧ ∀ bytes, op ≠ .load bytes) →
    step s = .fault f → step (performAll ops s) = .fault f

/-- 45_host_operations.md R164 ("the value of `DT` influences no other state and no output of this hardware"), for every operation: from states
that agree on all but `DT`, the results are the same and the states after still agree on all but `DT`. -/
def Obligations.DelayTimerInfluencesNothingElse : Prop :=
  ∀ (op : HostOp) (s s' : State), AgreeButTimer s s' →
    AgreeButTimer (op.perform s).1 (op.perform s').1 ∧ (op.perform s).2 = (op.perform s').2

/-! ### Control transfer -/

/-- 41_control_transfer.md R110: `RET` returns one instruction past the popped call-site address, in every state whose stack is not empty and
whose top can be advanced. The bound and the popped slot keeping its value are the spec's own decisions (log entries 9, 10). -/
def Obligations.RetReturnsPastTheCall : Prop :=
  ∀ (s : State) (k : SlotIx), k.val + 1 = s.sp.val → (s.slot k).toNat ≤ 0xFFFD →
    ∃ t : State, exec .ret s = .next t ∧ t.sp.val = k.val ∧ t.pc.toNat = (s.slot k).toNat + 2 ∧ KeepsAllBut [.sp, .pc] s t

/-- 41_control_transfer.md R110, the faults: underflow first, on an empty stack; the bounds violation on a top that cannot be advanced within 16
bits, which is the spec's own decision (log entry 9). -/
def Obligations.RetFaultsOnEmptyStackOrTopTooHigh : Prop :=
  ∀ s : State, (s.sp.val = 0 → exec .ret s = .fault .stackUnderflow) ∧
    (∀ k : SlotIx, k.val + 1 = s.sp.val → (s.slot k).toNat ≥ 0xFFFE →
      exec .ret s = .fault (.boundsViolation (s.slot k).toNat))

/-- 60_exceptions.md R184: a step on a `RET` with an empty stack returns the underflow, and `SP` and `PC`, like everything else, stay. -/
def Obligations.RetOnEmptyStackUnderflowsAndChangesNothing : Prop :=
  ∀ s : State, s.pc.toNat ≤ 0xFFE → wordAtPc s = 0x00EE#16 → s.sp.val = 0 →
    HostOp.step.perform s = (s, .fault .stackUnderflow)

/-- 41_control_transfer.md R111. -/
def Obligations.JpSetsPcAndNothingElse : Prop :=
  ∀ (nnn : Addr) (s : State), ∃ t : State, exec (.jp nnn) s = .next t ∧ t.pc.toNat = nnn.toNat ∧ KeepsAllBut [.pc] s t ∧
    (nnn.toNat = s.pc.toNat → t = s)

/-- 41_control_transfer.md R112: the full address of the `CALL` itself goes into slot `SP`; with all sixteen slots in use the stack overflows. That
the capacity is sixteen, so that `CALL` at `SP` = 15 succeeds and only at `SP` = 16 overflows, is the spec's reading of conflicting phrases, C5 and
decision D16 (log entry 11). -/
def Obligations.CallPushesItsOwnAddress : Prop :=
  ∀ (nnn : Addr) (s : State),
    (s.sp.val < 16 → ∃ t : State, exec (.call nnn) s = .next t ∧
      (∀ k : SlotIx, t.slot k = if k.val = s.sp.val then s.pc else s.slot k) ∧ t.sp.val = s.sp.val + 1 ∧
      t.pc.toNat = nnn.toNat ∧ KeepsAllBut [.stack, .sp, .pc] s t) ∧
    (s.sp.val = 16 → exec (.call nnn) s = .fault .stackOverflow)

/-- 60_exceptions.md R183: a step on a `CALL` with the stack full returns the overflow, nothing is pushed and `PC` stays. -/
def Obligations.CallOnFullStackOverflowsAndChangesNothing : Prop :=
  ∀ (nnn : Addr) (s : State), s.pc.toNat ≤ 0xFFE → (wordAtPc s).toNat = 0x2000 + nnn.toNat → s.sp.val = 16 →
    HostOp.step.perform s = (s, .fault .stackOverflow)

/-- 41_control_transfer.md R110, R112 and the source's round-trip property (95_test_vectors.md S3): from any state that still has the stack a `CALL`
left, `RET` goes to the instruction after that `CALL`, with the pointer's value from before it. -/
def Obligations.CallThenRetReturnsAfterTheCall : Prop :=
  ∀ (nnn : Addr) (s t u : State), s.pc.toNat ≤ 0xFFE → exec (.call nnn) s = .next t → u.sp = t.sp →
    (∀ k : SlotIx, k.val < t.sp.val → u.slot k = t.slot k) →
    ∃ v : State, exec .ret u = .next v ∧ v.pc.toNat = s.pc.toNat + 2 ∧ v.sp = s.sp

/-- 41_control_transfer.md R112, 90_conflicts.md C5: calls nest exactly as deep as the free slots of the sixteen: up to that many succeed, one more
overflows, and the slots in use before are never disturbed. -/
def Obligations.CallsNestExactlySixteenDeep : Prop :=
  ∀ (targets : List Addr) (s : State),
    (s.sp.val + targets.length ≤ 16 → ∃ t : State, callChain targets s = .next t ∧ t.sp.val = s.sp.val + targets.length ∧
      ∀ k : SlotIx, k.val < s.sp.val → t.slot k = s.slot k) ∧
    (s.sp.val + targets.length > 16 → callChain targets s = .fault .stackOverflow)

/-- 41_control_transfer.md R113. -/
def Obligations.SeSkipsOnEqual : Prop :=
  ∀ (x : RegIx) (kk : Byte) (s : State), ∃ t : State, exec (.seByte x kk) s = .next t ∧
    t.pc = (if s.reg x = kk then s.pc + 4#16 else s.pc + 2#16) ∧ KeepsAllBut [.pc] s t

/-- 41_control_transfer.md R114: as `SE` with the condition inverted, so that exactly one of the two skips. -/
def Obligations.SneSkipsOnDifferent : Prop :=
  ∀ (x : RegIx) (kk : Byte) (s : State), ∃ t : State, exec (.sneByte x kk) s = .next t ∧
    t.pc = (if s.reg x ≠ kk then s.pc + 4#16 else s.pc + 2#16) ∧ KeepsAllBut [.pc] s t ∧
    ∃ u : State, exec (.seByte x kk) s = .next u ∧ (t.pc = s.pc + 4#16 ↔ u.pc = s.pc + 2#16)

/-! ### Register, index and timer operations -/

/-- 42_register_ops.md R120; `x = F` included. -/
def Obligations.LdByteLoadsTheImmediate : Prop :=
  ∀ (x : RegIx) (kk : Byte) (s : State), ∃ t : State, exec (.ldByte x kk) s = .next t ∧ t.reg x = kk ∧ SameRegsBut x s t ∧
    t.pc = s.pc + 2#16 ∧ KeepsAllBut [.v, .pc] s t

/-- 42_register_ops.md R121: modulo 256 with no flag; `x = F` included. -/
def Obligations.AddByteAddsModulo256WithoutFlag : Prop :=
  ∀ (x : RegIx) (kk : Byte) (s : State), ∃ t : State, exec (.addByte x kk) s = .next t ∧
    (t.reg x).toNat = ((s.reg x).toNat + kk.toNat) % 256 ∧ SameRegsBut x s t ∧ t.pc = s.pc + 2#16 ∧ KeepsAllBut [.v, .pc] s t

/-- 42_register_ops.md R122; `x = y` included. -/
def Obligations.LdRegCopiesTheRegister : Prop :=
  ∀ (x y : RegIx) (s : State), ∃ t : State, exec (.ldReg x y) s = .next t ∧ t.reg x = s.reg y ∧ SameRegsBut x s t ∧
    t.pc = s.pc + 2#16 ∧ KeepsAllBut [.v, .pc] s t

/-- 42_register_ops.md R123. -/
def Obligations.LdILoadsTheAddress : Prop :=
  ∀ (nnn : Addr) (s : State), ∃ t : State, exec (.ldI nnn) s = .next t ∧ t.i.toNat = nnn.toNat ∧ t.pc = s.pc + 2#16 ∧
    KeepsAllBut [.i, .pc] s t

/-- 42_register_ops.md R124: all eight bits are written, and `PC` advances. -/
def Obligations.LdDtSetsTheTimer : Prop :=
  ∀ (x : RegIx) (s : State), ∃ t : State, exec (.ldDt x) s = .next t ∧ t.dt = s.reg x ∧ t.pc = s.pc + 2#16 ∧
    KeepsAllBut [.dt, .pc] s t

/-- 42_register_ops.md R125: modulo 65536, no flag, no mask and no check. The wrap is the spec's own decision (log entry 8). -/
def Obligations.AddIAddsModulo65536WithoutFlag : Prop :=
  ∀ (x : RegIx) (s : State), ∃ t : State, exec (.addI x) s = .next t ∧ t.i.toNat = (s.i.toNat + (s.reg x).toNat) % 65536 ∧
    t.pc = s.pc + 2#16 ∧ KeepsAllBut [.i, .pc] s t

/-! ### Display -/

/-- 43_display.md R130. -/
def Obligations.ClsTurnsEveryPixelOff : Prop :=
  ∀ s : State, ∃ t : State, exec .cls s = .next t ∧ (∀ (c : Column) (r : Row), t.pixel c r = false) ∧ t.pc = s.pc + 2#16 ∧
    KeepsAllBut [.fb, .pc] s t

/-- 43_display.md R131 to R138: `DRW` of 0 to 15 rows whose data lie in memory inverts exactly the pixels that a sprite bit 1 maps to, each wrapped
on its own, and sets `VF` to 1 exactly when such a pixel was lit before; every other register and item stays; `x = F`, `y = F`, `x = y` and
`n = 0` included. The most significant bit leftmost is general knowledge (log entry 4); the wrap of every pixel, `n = 0`, the range check and
the sampling of the position are the spec's own decisions (log entries 5, 6). -/
def Obligations.DrwInvertsExactlyTheSpritePixels : Prop :=
  ∀ (x y : RegIx) (n : Nat) (s : State), n ≤ 15 → SpriteInMemory s n →
    ∃ t : State, exec (.drw x y n) s = .next t ∧
      (∀ (c : Column) (r : Row), SpriteCovers s x y n c r → t.pixel c r = !s.pixel c r) ∧
      (∀ (c : Column) (r : Row), ¬ SpriteCovers s x y n c r → t.pixel c r = s.pixel c r) ∧
      ((∃ (c : Column) (r : Row), SpriteCovers s x y n c r ∧ s.pixel c r = true) → t.reg 15 = 0x01#8) ∧
      ((¬ ∃ (c : Column) (r : Row), SpriteCovers s x y n c r ∧ s.pixel c r = true) → t.reg 15 = 0x00#8) ∧
      SameRegsBut 15 s t ∧ t.pc = s.pc + 2#16 ∧ KeepsAllBut [.v, .fb, .pc] s t

/-- 43_display.md R133: a sprite whose data run past 0xFFF draws none of its rows: the bounds violation, with the first address outside memory. The
whole-range check and the value are the spec's own decisions (log entries 2, 6). -/
def Obligations.DrwFaultsWhenDataLeaveMemory : Prop :=
  ∀ (x y : RegIx) (n : Nat) (s : State), 0 < n → s.i.toNat + n - 1 > 0xFFF →
    exec (.drw x y n) s = .fault (.boundsViolation (if s.i.toNat > 0xFFF then s.i.toNat else 0x1000))

/-- 43_display.md R131 (the source's property), R135, R138: the same sprite drawn twice at the same place restores the display, and the second draw
collides exactly when the sprite covers a pixel that was off before the first. The two position registers are other than `VF`, which the first
draw overwrites. The clause on the display does not depend on the bit order; the two clauses on `VF` name the covered pixels by R134 and rest on
the most significant bit leftmost, which is general knowledge (log entry 4), and on the spec's own decisions that every pixel wraps (log entry 5)
and on `n = 0` (log entry 6). -/
def Obligations.DrawingTwiceRestoresTheDisplay : Prop :=
  ∀ (x y : RegIx) (n : Nat) (s t : State), x ≠ 15 → y ≠ 15 → n ≤ 15 → exec (.drw x y n) s = .next t →
    ∃ u : State, exec (.drw x y n) t = .next u ∧ Keeps .fb s u ∧
      ((∃ (c : Column) (r : Row), SpriteCovers s x y n c r ∧ s.pixel c r = false) → u.reg 15 = 0x01#8) ∧
      ((¬ ∃ (c : Column) (r : Row), SpriteCovers s x y n c r ∧ s.pixel c r = false) → u.reg 15 = 0x00#8)

/-! ### Keypad -/

/-- 44_keypad.md R150: with `V[x]` a key index, `SKNP` skips exactly when that key is not pressed. -/
def Obligations.SknpSkipsWhenTheKeyIsUp : Prop :=
  ∀ (x : RegIx) (k : KeyIx) (s : State), k.val = (s.reg x).toNat →
    ∃ t : State, exec (.sknp x) s = .next t ∧ t.pc = (if s.key k = false then s.pc + 4#16 else s.pc + 2#16) ∧
      KeepsAllBut [.pc] s t

/-- 44_keypad.md R150: a key index above 15 is a bounds violation, not reduced to its low nibble: the spec's own decision (log entry 7). -/
def Obligations.SknpFaultsAboveFifteen : Prop :=
  ∀ (x : RegIx) (s : State), (s.reg x).toNat > 0x0F → exec (.sknp x) s = .fault (.boundsViolation (s.reg x).toNat)

/-- 44_keypad.md R151: `LD Vx,K` completes with the lowest pressed key. -/
def Obligations.LdKeyLoadsTheLowestPressedKey : Prop :=
  ∀ (x : RegIx) (k : KeyIx) (s : State), s.key k = true → (∀ j : KeyIx, j < k → s.key j = false) →
    ∃ t : State, exec (.ldKey x) s = .next t ∧ (t.reg x).toNat = k.val ∧ SameRegsBut x s t ∧ t.pc = s.pc + 2#16 ∧
      KeepsAllBut [.v, .pc] s t

/-- 44_keypad.md R151: with no key pressed the step goes on and changes nothing at all. That the stall has no status of its own is the spec's own
decision (log entry 15). -/
def Obligations.LdKeyStallsWithoutAKey : Prop :=
  ∀ (x : RegIx) (s : State), (∀ k : KeyIx, s.key k = false) → exec (.ldKey x) s = .next s

/-! ### Encoding -/

/-- 30_encoding.md R70, R71, R75, R79: the bytes of every well-formed instruction decode to it, with every operand, whatever follows them. -/
def Obligations.DecodeOfEncodeIsTheInstruction : Prop :=
  ∀ (i : Instr) (rest : List Byte), i.wellFormed = true → decodeBytes (encodeBytes i ++ rest) = .ok (i, rest)

/-- 30_encoding.md R75, R79: each word has one meaning: whatever the decoder accepts is well formed and encodes to that very word. -/
def Obligations.EncodeOfDecodeIsTheWord : Prop :=
  ∀ (w : Word) (i : Instr), decodeWord w = .ok i → i.wellFormed = true ∧ encode i = w

/-- 30_encoding.md R75: fifteen rows, pairwise disjoint, each with as many words as its free bits allow and no bit fixed outside its mask, 33090 words
in all; the decoder accepts a word exactly when it selects a row, which is then the row of the instruction decoded. -/
def Obligations.DecoderAcceptsExactlyTheOpcodeTable : Prop :=
  opcodeTable.length = 15 ∧
    opcodeTable.Pairwise (fun r r' => ∀ w : Word, ¬ (r.selects w = true ∧ r'.selects w = true)) ∧
    (∀ r ∈ opcodeTable, r.fixed &&& r.mask = r.fixed ∧
      r.encodings = 2 ^ ((List.range 16).filter fun b => r.mask.getLsbD b == false).length) ∧
    (opcodeTable.map OpcodeRow.encodings).sum = 33090 ∧
    ∀ (w : Word) (r : OpcodeRow), (∃ i : Instr, decodeWord w = .ok i ∧ rowOf i = r) ↔ (r ∈ opcodeTable ∧ r.selects w = true)

/-- 30_encoding.md R77: the unknown words are exactly those of the table by first nibble. -/
def Obligations.UnknownWordsAreExactlyTheListed : Prop :=
  ∀ w : Word, decodeWord w = .error (.unknownInstruction w) ↔
    ((w.toNat / 4096 = 0x0 ∧ w.toNat ≠ 0x00E0 ∧ w.toNat ≠ 0x00EE) ∨ w.toNat / 4096 = 0x5 ∨
      (w.toNat / 4096 = 0x8 ∧ w.toNat % 16 ≠ 0x0) ∨ w.toNat / 4096 = 0x9 ∨ w.toNat / 4096 = 0xB ∨ w.toNat / 4096 = 0xC ∨
      (w.toNat / 4096 = 0xE ∧ w.toNat % 256 ≠ 0xA1) ∨
      (w.toNat / 4096 = 0xF ∧ w.toNat % 256 ≠ 0x0A ∧ w.toNat % 256 ≠ 0x15 ∧ w.toNat % 256 ≠ 0x1E))

/-- 30_encoding.md R79's worked words and one word of each format of R74, written out from the patterns. -/
def Obligations.SampleWordsDecodeRight : Prop :=
  decodeWord 0b0000000011100000#16 = .ok .cls ∧ decodeWord 0b0000000011101110#16 = .ok .ret ∧
    decodeWord 0b0001001010101000#16 = .ok (.jp 0x2A8#12) ∧ decodeWord 0b0110001100101010#16 = .ok (.ldByte 3 0x2A#8) ∧
    decodeWord 0b1000101110100000#16 = .ok (.ldReg 11 10) ∧ decodeWord 0b1101000000010101#16 = .ok (.drw 0 1 5) ∧
    decodeWord 0b1110001110100001#16 = .ok (.sknp 3) ∧ decodeWord 0b1111001100001010#16 = .ok (.ldKey 3)

/-! ### Host operations -/

/-- 45_host_operations.md R162: an image of at most 3584 bytes is written verbatim from 0x200 upward, and nothing else changes. That the bytes beyond
it keep their contents, and the other details, are the spec's own decisions (log entry 14). -/
def Obligations.LoadWritesTheImageAndNothingElse : Prop :=
  ∀ (bytes : List Byte) (s : State), s.mem.wf → bytes.length ≤ 3584 →
    ∃ t : State, (HostOp.load bytes).perform s = (t, .ok) ∧
      (∀ (k : Nat) (h : k < bytes.length), t.mem.read (0x200 + k) = bytes[k]) ∧
      (∀ a : Nat, a < 0x200 ∨ 0x200 + bytes.length ≤ a → t.mem.read a = s.mem.read a) ∧ KeepsAllBut [.mem] s t

/-- 60_exceptions.md R186: an image longer than 3584 bytes is rejected and no byte is written. That a failed load writes no prefix of the image is the
spec's own decision D19, stated in R162 (log entry 14). -/
def Obligations.LoadTooLargeWritesNothing : Prop :=
  ∀ (bytes : List Byte) (s : State), bytes.length > 3584 →
    ∃ info : Nat, (HostOp.load bytes).perform s = (s, .fault (.loadTooLarge info))

/-- 45_host_operations.md R164: the timer goes one down and stops at zero, which is general knowledge (log entry 12); nothing else changes. -/
def Obligations.TickCountsDownToZero : Prop :=
  ∀ s : State, ∃ t : State, HostOp.tickTimer.perform s = (t, .nothing) ∧ t.dt.toNat = s.dt.toNat - 1 ∧ KeepsAllBut [.dt] s t

/-- 45_host_operations.md R165: one key is written and no other key or item. That an index outside 0 to 15 cannot be presented is the spec's own
decision (log entry 13). -/
def Obligations.SetKeyWritesOneKey : Prop :=
  ∀ (k : KeyIx) (pressed : Bool) (s : State), ∃ t : State, (HostOp.setKey k pressed).perform s = (t, .nothing) ∧
    t.key k = pressed ∧ (∀ j : KeyIx, j ≠ k → t.key j = s.key j) ∧ KeepsAllBut [.keys] s t

/-- 44_keypad.md R153: a key reads the last value the host wrote for it since the latest reset, whatever else the run did; no step changes it. -/
def Obligations.KeyReadsWhatTheHostLastWrote : Prop :=
  ∀ (ops : List HostOp) (k : KeyIx) (s : State), (performAll ops s).key k = lastWritten k ops (s.key k)

/-- 70_reset_and_hazards.md R211: `reset` puts every item to its power-on value but memory, which stays: the spec's own decision (log entry 3). -/
def Obligations.ResetClearsAllButMemory : Prop :=
  ∀ s : State, ∃ t : State, HostOp.reset.perform s = (t, .nothing) ∧ Keeps .mem s t ∧ KeepsAllBut [.mem] State.reset t

/-- 70_reset_and_hazards.md R212: after power-on or `reset` the first fetch reads `M[0x200]` and `M[0x201]`. -/
def Obligations.FirstFetchIsAtTheOrigin : Prop :=
  ∀ (op : HostOp) (s : State), op = .powerOn ∨ op = .reset →
    fetch (op.perform s).1 = .ok (BitVec.ofNat 16
      (((op.perform s).1.mem.read 0x200).toNat * 256 + ((op.perform s).1.mem.read 0x201).toNat))

/-- 70_reset_and_hazards.md R213: stepped without a load, the machine meets 0x0000 at 0x200, an unknown instruction. The recorded value is the spec's
own decision (log entry 2). -/
def Obligations.UnloadedMachineFaultsAtOnce : Prop :=
  HostOp.step.perform State.reset = (State.reset, .fault (.unknownInstruction 0x0000#16))

/-- 70_reset_and_hazards.md R213: after `reset` and a `load` whose image begins with the bytes of a well-formed instruction, the next step runs that
instruction. -/
def Obligations.LoadedInstructionRunsFirst : Prop :=
  ∀ (i : Instr) (rest : List Byte) (s t : State), i.wellFormed = true → s.mem.wf →
    (HostOp.load (encodeBytes i ++ rest)).perform (HostOp.reset.perform s).1 = (t, .ok) → step t = exec i t

/-- 45_host_operations.md R166, R167: `get_pixel` and `dump` change nothing; the first returns the pixel, which stands at index `r × 64 + c` of the
row-major frame; the second returns `PC`, `V`, `STACK`, `SP`, and depends on nothing else. -/
def Obligations.ObserversChangeNothing : Prop :=
  (∀ (c : Column) (r : Row) (s : State), (HostOp.getPixel c r).perform s = (s, .pixel (s.pixel c r)) ∧
    (frame s)[r.val * 64 + c.val]? = some (s.pixel c r)) ∧
  (∀ s : State, ∃ d : Dump, HostOp.dump.perform s = (s, .dumped d) ∧ d.pc = s.pc ∧ d.sp = s.sp ∧
    (∀ x : RegIx, d.v[x] = s.reg x) ∧ ∀ k : SlotIx, d.stack[k] = s.slot k)
end

