-- ==== Sys2Proof/Laws/Decode.lean ====
section
/-! SUPPORT. The fields of a word as numbers, the opcode table's masks as conditions on fields, and the decoder by cases. -/

namespace Sys2Proof

/-! ### Bytes and words -/

/-- Two bytes, big-endian (R52). -/
theorem wordOfBytes_pair (hi lo : Byte) : wordOfBytes [hi, lo] = BitVec.ofNat 16 (hi.toNat * 256 + lo.toNat) := by
  simp [wordOfBytes, bigEndian]

/-- A word is the big-endian number of its bytes. -/
theorem wordOfBytes_bytesOfWord (w : Word) : wordOfBytes (bytesOfWord w) = w := by
  rw [bytesOfWord, wordOfBytes_pair]
  apply BitVec.eq_of_toNat_eq
  have := w.isLt
  simp [BitVec.extractLsb'_toNat, Nat.shiftRight_eq_div_pow]
  omega

/-- The bytes of a word of two bytes are those bytes. -/
theorem bytesOfWord_pair (hi lo : Byte) : bytesOfWord (BitVec.ofNat 16 (hi.toNat * 256 + lo.toNat)) = [hi, lo] := by
  have h := hi.isLt
  have l := lo.isLt
  simp only [bytesOfWord, List.cons.injEq, and_true]
  constructor <;> apply BitVec.eq_of_toNat_eq <;>
    simp [BitVec.extractLsb'_toNat, Nat.shiftRight_eq_div_pow] <;> omega

/-! ### Fields as numbers (R71) -/

theorem fieldN3_toNat (w : Word) : (fieldN3 w).toNat = w.toNat / 4096 := by
  have := w.isLt
  simp [fieldN3, BitVec.extractLsb'_toNat, Nat.shiftRight_eq_div_pow]; omega

theorem fieldX_val (w : Word) : (fieldX w).val = w.toNat / 256 % 16 := by
  simp [fieldX, Nat.shiftRight_eq_div_pow]

theorem fieldY_val (w : Word) : (fieldY w).val = w.toNat / 16 % 16 := by
  simp [fieldY, Nat.shiftRight_eq_div_pow]

theorem fieldN_eq (w : Word) : fieldN w = w.toNat % 16 := by
  simp [fieldN, BitVec.extractLsb'_toNat]

theorem fieldNnn_toNat (w : Word) : (fieldNnn w).toNat = w.toNat % 4096 := by
  simp [fieldNnn, BitVec.extractLsb'_toNat]

theorem fieldKk_toNat (w : Word) : (fieldKk w).toNat = w.toNat % 256 := by
  simp [fieldKk, BitVec.extractLsb'_toNat]

theorem fieldN_le (w : Word) : fieldN w ≤ 15 := by rw [fieldN_eq]; omega

/-! ### Masks as conditions on the number of the word (R75) -/

theorem and_F000 (w : Word) : (w &&& 0xF000#16).toNat = w.toNat / 4096 * 4096 := by
  have h : w &&& 0xF000#16 = (w >>> 12) <<< 12 := by
    ext i hi
    interval_cases i <;> simp
  rw [h]
  have := w.isLt
  simp [Nat.shiftRight_eq_div_pow, Nat.shiftLeft_eq]; omega

theorem and_F00F (w : Word) : (w &&& 0xF00F#16).toNat = w.toNat / 4096 * 4096 + w.toNat % 16 := by
  have h : w &&& 0xF00F#16 = (w &&& 0xF000#16) ||| (w &&& 0x000F#16) := by
    ext i hi
    interval_cases i <;> simp
  have hd : (w &&& 0xF000#16) &&& (w &&& 0x000F#16) = 0#16 := by
    ext i hi
    interval_cases i <;> simp
  have hl : (w &&& 0x000F#16).toNat = w.toNat % 16 := by
    rw [BitVec.toNat_and]; exact Nat.and_two_pow_sub_one_eq_mod w.toNat 4
  rw [h, ← BitVec.add_eq_or_of_and_eq_zero _ _ hd, BitVec.toNat_add, and_F000, hl]
  have := w.isLt
  omega

theorem and_F0FF (w : Word) : (w &&& 0xF0FF#16).toNat = w.toNat / 4096 * 4096 + w.toNat % 256 := by
  have h : w &&& 0xF0FF#16 = (w &&& 0xF000#16) ||| (w &&& 0x00FF#16) := by
    ext i hi
    interval_cases i <;> simp
  have hd : (w &&& 0xF000#16) &&& (w &&& 0x00FF#16) = 0#16 := by
    ext i hi
    interval_cases i <;> simp
  have hl : (w &&& 0x00FF#16).toNat = w.toNat % 256 := by
    rw [BitVec.toNat_and]; exact Nat.and_two_pow_sub_one_eq_mod w.toNat 8
  rw [h, ← BitVec.add_eq_or_of_and_eq_zero _ _ hd, BitVec.toNat_add, and_F000, hl]
  have := w.isLt
  omega

/-- A word selects a row exactly when the numbers agree. -/
theorem selects_iff (r : OpcodeRow) (w : Word) : r.selects w = true ↔ (w &&& r.mask).toNat = r.fixed.toNat := by
  rw [OpcodeRow.selects, beq_iff_eq, ← BitVec.toNat_inj]

/-! ### The encoder -/

/-- A well-formed instruction's number fits a word. -/
theorem encodeNat_lt {i : Instr} (h : i.wellFormed = true) : encodeNat i < 65536 := by
  cases i <;> simp only [encodeNat, Instr.wellFormed, decide_eq_true_eq] at h ⊢ <;> omega

theorem encode_toNat {i : Instr} (h : i.wellFormed = true) : (encode i).toNat = encodeNat i := by
  have := encodeNat_lt h
  simp [encode]; omega

/-! ### The decoder -/

/-- Whatever the decoder accepts is well formed. -/
theorem decodeWord_wellFormed {w : Word} {i : Instr} (h : decodeWord w = .ok i) : i.wellFormed = true := by
  unfold decodeWord at h
  have := fieldN_le w
  split at h <;> (try split at h) <;> (try split at h) <;> (try split at h) <;>
    first
    | (injection h with h; subst h; simp [Instr.wellFormed, this])
    | cases h

/-- A rejected word is rejected by the name of the unknown instruction, with the word (R77, R92). -/
theorem decodeWord_error {w : Word} {e : DecodeReject} (h : decodeWord w = .error e) : e = .unknownInstruction w := by
  unfold decodeWord at h
  split at h <;> (try split at h) <;> (try split at h) <;> (try split at h) <;>
    first
    | (injection h with h; exact h.symm)
    | cases h

/-- The decoder on a byte stream is the decoder on its first two bytes. -/
theorem decodeBytes_pair (hi lo : Byte) (rest : List Byte) :
    decodeBytes (hi :: lo :: rest) =
      match decodeWord (wordOfBytes [hi, lo]) with
      | .ok i => .ok (i, rest)
      | .error e => .error e := rfl

/-- The host's reading of a table word is the decoder's reading of its bytes. -/
theorem decodeTableWord_eq (nbits w : Nat) :
    decodeTableWord nbits w = (decodeWord (BitVec.ofNat 16 (w % 2 ^ nbits))).toOption := by
  have hb : tableBytes nbits w = bytesOfWord (BitVec.ofNat 16 (w % 2 ^ nbits)) := rfl
  have hw := wordOfBytes_bytesOfWord (BitVec.ofNat 16 (w % 2 ^ nbits))
  rw [bytesOfWord] at hb hw
  simp only [decodeTableWord, hb, decodeBytes_pair, hw]
  cases decodeWord (BitVec.ofNat 16 (w % 2 ^ nbits)) <;> rfl

end Sys2Proof
end

