-- ==== Sys2Proof/Laws/Memory.lean ====
section
/-! SUPPORT. Memory: a read after a write, the canonical form kept by every memory operation, and equal reads make equal canonical
memories. -/

namespace Sys2Proof.Machine

@[simp] theorem read_nil (a : Nat) : Memory.read [] a = 0x00#8 := rfl

/-- An address below every listed one reads as unlisted. -/
theorem read_of_below {m : Memory} {a : Nat} (h : ∀ c ∈ m, a < c.1) : m.read a = 0x00#8 := by
  induction m with
  | nil => rfl
  | cons c rest ih =>
    have hc := h c (by simp)
    simp only [Memory.read]
    rw [if_neg (by omega)]
    exact ih fun d hd => h d (by simp [hd])

/-- An address outside memory is listed by no canonical memory. -/
theorem read_of_outside {m : Memory} (hm : m.wf) {a : Nat} (ha : Config.memSize ≤ a) : m.read a = 0x00#8 := by
  obtain ⟨-, hb⟩ := hm
  induction m with
  | nil => rfl
  | cons c rest ih =>
    have hc := (hb c (by simp)).2
    simp only [Memory.read]
    rw [if_neg (by omega)]
    exact ih fun d hd => hb d (by simp [hd])

theorem wf_nil : Memory.wf [] := by simp [Memory.wf]

theorem wf_tail {c : Host.Cell} {m : Memory} (h : Memory.wf (c :: m)) : Memory.wf m :=
  ⟨(List.pairwise_cons.mp h.1).2, fun d hd => h.2 d (by simp [hd])⟩

theorem wf_head {c : Host.Cell} {m : Memory} (h : Memory.wf (c :: m)) : ∀ d ∈ m, c.1 < d.1 :=
  (List.pairwise_cons.mp h.1).1

/-- The value just written at its address, and the old value everywhere else. -/
theorem read_write {m : Memory} (h : m.wf) (a : Nat) (b : Byte) (a' : Nat) :
    (m.write a b).read a' = if a' = a then b else m.read a' := by
  induction m with
  | nil =>
    by_cases hb : b = Config.unlistedByte
    · simp [Memory.write, hb]
    · by_cases ha : a' = a
      · simp [Memory.write, hb, Memory.read, ha]
      · simp [Memory.write, hb, Memory.read, ha, Ne.symm ha]
  | cons c rest ih =>
    have below : ∀ {e}, e ≤ c.1 → Memory.read rest e = 0x00#8 :=
      fun he => read_of_below fun d hd => Nat.lt_of_le_of_lt he (wf_head h d hd)
    have ihr := ih (wf_tail h)
    simp only [Memory.write]
    split
    · rename_i hlt
      by_cases hb : b = Config.unlistedByte
      · by_cases ha : a' = a
        · subst ha; simp [hb, Memory.read, below (Nat.le_of_lt hlt), Nat.ne_of_gt hlt]
        · simp [hb, ha]
      · by_cases ha : a' = a
        · simp [hb, ha, Memory.read]
        · simp [hb, ha, Memory.read, Ne.symm ha]
    · split
      · rename_i heq
        by_cases hb : b = Config.unlistedByte
        · by_cases ha : a' = a
          · subst ha; simp [hb, below (Nat.le_of_eq heq)]
          · have : c.1 ≠ a' := by omega
            simp [hb, ha, Memory.read, this]
        · by_cases ha : a' = a
          · simp [hb, ha, Memory.read]
          · have : c.1 ≠ a' := by omega
            simp [hb, ha, Memory.read, Ne.symm ha, this]
      · rename_i hne
        by_cases hc : c.1 = a'
        · have : a' ≠ a := by omega
          simp [Memory.read, hc, this]
        · simp [Memory.read, hc, ihr]

/-- The entries of a written memory are old entries or the new one. -/
theorem mem_write {m : Memory} {a : Nat} {b : Byte} {c : Host.Cell} (h : c ∈ m.write a b) :
    c ∈ m ∨ (c = (a, b) ∧ b ≠ Config.unlistedByte) := by
  induction m with
  | nil =>
    by_cases hb : b = Config.unlistedByte <;> simp_all [Memory.write]
  | cons d rest ih =>
    simp only [Memory.write] at h
    split at h
    · split at h
      · exact .inl h
      · simp only [List.mem_cons] at h ⊢; tauto
    · split at h
      · split at h <;> simp only [List.mem_cons] at h ⊢ <;> tauto
      · simp only [List.mem_cons] at h ⊢
        rcases h with h | h
        · exact .inl (.inl h)
        · rcases ih h with h | h
          · exact .inl (.inr h)
          · exact .inr h

/-- A write inside memory keeps the canonical form. -/
theorem wf_write {m : Memory} (h : m.wf) {a : Nat} (ha : a < Config.memSize) (b : Byte) : (m.write a b).wf := by
  refine ⟨?_, fun c hc => ?_⟩
  · induction m with
    | nil => by_cases hb : b = Config.unlistedByte <;> simp [Memory.write, hb]
    | cons d rest ih =>
      have hh := wf_head h
      have hp := h.1
      simp only [Memory.write]
      split
      · split
        · exact hp
        · rename_i hlt _
          refine List.pairwise_cons.mpr ⟨fun c hc => ?_, hp⟩
          rcases List.mem_cons.mp hc with rfl | hc
          · exact hlt
          · exact Nat.lt_trans hlt (hh c hc)
      · split
        · split
          · exact (wf_tail h).1
          · rename_i heq _
            exact List.pairwise_cons.mpr ⟨fun c hc => by have := hh c hc; simp only; omega, (wf_tail h).1⟩
        · refine List.pairwise_cons.mpr ⟨fun c hc => ?_, ih (wf_tail h)⟩
          rcases mem_write hc with hc | ⟨rfl, -⟩
          · exact hh c hc
          · simp only; omega
  · rcases mem_write hc with hc | ⟨rfl, hb⟩
    · exact h.2 c hc
    · exact ⟨hb, ha⟩

/-- Canonical memories that read alike are equal. -/
theorem memory_ext {m m' : Memory} (h : m.wf) (h' : m'.wf) (heq : ∀ a, m.read a = m'.read a) : m = m' := by
  induction m generalizing m' with
  | nil =>
    cases m' with
    | nil => rfl
    | cons c rest =>
      have := heq c.1
      exact absurd (by simpa [Memory.read] using this.symm) (h'.2 c (by simp)).1
  | cons c rest ih =>
    cases m' with
    | nil =>
      have := heq c.1
      exact absurd (by simpa [Memory.read] using this) (h.2 c (by simp)).1
    | cons d rest' =>
      have hc := (h.2 c (by simp)).1
      have hd := (h'.2 d (by simp)).1
      have hkey : c.1 = d.1 := by
        rcases Nat.lt_trichotomy c.1 d.1 with hlt | heq' | hgt
        · have e := heq c.1
          have z : Memory.read (d :: rest') c.1 = 0x00#8 := read_of_below fun e he => by
            rcases List.mem_cons.mp he with rfl | he
            · exact hlt
            · exact Nat.lt_trans hlt (wf_head h' e he)
          rw [z] at e
          exact absurd (by simpa [Memory.read] using e) hc
        · exact heq'
        · have e := heq d.1
          have z : Memory.read (c :: rest) d.1 = 0x00#8 := read_of_below fun e he => by
            rcases List.mem_cons.mp he with rfl | he
            · exact hgt
            · exact Nat.lt_trans hgt (wf_head h e he)
          rw [z] at e
          exact absurd (by simpa [Memory.read] using e.symm) hd
      have hval : c.2 = d.2 := by
        have e := heq c.1
        simpa [Memory.read, hkey] using e
      have hrest : rest = rest' := by
        refine ih (wf_tail h) (wf_tail h') fun a => ?_
        by_cases ha : c.1 = a
        · rw [read_of_below fun e he => ha ▸ wf_head h e he,
            read_of_below fun e he => ha ▸ hkey ▸ wf_head h' e he]
        · have e := heq a
          simpa [Memory.read, ha, hkey ▸ ha] using e
      rw [hrest, Prod.ext hkey hval]

/-! ### The checked operations -/

/-- The bounds check passes exactly on accesses of no bytes and on those that end inside memory. -/
theorem rangeFault_eq_none {addr n : Nat} : rangeFault addr n = none ↔ n = 0 ∨ addr + n - 1 ≤ 0xFFF := by
  unfold rangeFault
  split <;> simp <;> omega

/-- Everything a checked read can answer. -/
theorem memRead_cases (addr n : Nat) (s : State) :
    ((n = 0 ∨ addr + n - 1 ≤ 0xFFF) ∧ memRead addr n s = .ok (s.mem.bytesAt addr n)) ∨
    (0 < n ∧ addr + n - 1 > 0xFFF ∧
      memRead addr n s = .error (.boundsViolation (if addr > 0xFFF then addr else 0x1000))) := by
  unfold memRead rangeFault
  by_cases h : 0 < n ∧ addr + n - 1 > 0xFFF
  · exact .inr ⟨h.1, h.2, by simp [h]⟩
  · refine .inl ⟨by omega, ?_⟩
    rw [if_neg h]

/-- A checked write inside memory is the plain write. -/
theorem memWrite_ok {addr : Nat} (h : addr < Config.memSize) (b : Byte) (m : Memory) :
    memWrite addr b m = .ok (m.write addr b) := by
  unfold memWrite
  rw [rangeFault_eq_none.mpr (by simp only [Config.memSize] at h; omega)]

@[simp] theorem length_bytesAt (m : Memory) (addr n : Nat) : (m.bytesAt addr n).length = n := by
  simp [Memory.bytesAt]

theorem bytesAt_zero (m : Memory) (addr : Nat) : m.bytesAt addr 0 = [] := rfl

theorem bytesAt_succ (m : Memory) (addr n : Nat) :
    m.bytesAt addr (n + 1) = m.read addr :: m.bytesAt (addr + 1) n := by
  simp [Memory.bytesAt, List.range_succ_eq_map, Function.comp_def, Nat.add_assoc, Nat.add_comm 1]

/-- Bytes written at rising addresses inside memory: never a fault, the canonical form kept, the bytes read back and every other
byte as before (R59, R162). -/
theorem writeBytes_spec {addr : Nat} {bs : List Byte} {m : Memory} (hm : m.wf) (h : addr + bs.length ≤ Config.memSize) :
    ∃ m' : Memory, writeBytes addr bs m = .ok m' ∧ m'.wf ∧
      ∀ a, m'.read a = if addr ≤ a ∧ a < addr + bs.length then bs.getD (a - addr) 0x00#8 else m.read a := by
  induction bs generalizing addr m with
  | nil => exact ⟨m, rfl, hm, fun a => by simp only [List.length_nil]; rw [if_neg (by omega)]⟩
  | cons b bs ih =>
    simp only [List.length_cons] at h
    have hw := memWrite_ok (addr := addr) (by omega) b m
    obtain ⟨m', he, hwf, hr⟩ := ih (wf_write hm (show addr < Config.memSize by omega) b) (addr := addr + 1) (by omega)
    refine ⟨m', by simp [writeBytes, hw, he], hwf, fun a => ?_⟩
    rw [hr a, read_write hm]
    simp only [List.length_cons]
    by_cases h1 : a = addr
    · subst h1; simp
    · by_cases h2 : addr + 1 ≤ a ∧ a < addr + 1 + bs.length
      · rw [if_pos h2, if_pos (by omega)]
        obtain ⟨k, hk⟩ : ∃ k, a - addr = k + 1 := ⟨a - addr - 1, by omega⟩
        rw [hk, show a - (addr + 1) = k by omega]; simp
      · rw [if_neg h2, if_neg h1, if_neg (by omega)]

end Sys2Proof.Machine
end

