-- ==== Sys2Proof/Laws/State.lean ====
section
/-! SUPPORT. One lemma for each field of State under each update of it, true by rfl, so that no later proof unfolds a record
update. -/

namespace Sys2Proof.Machine

@[simp] theorem setReg_mem (s : State) (x : RegIx) (b : Byte) : (s.setReg x b).mem = s.mem := rfl
@[simp] theorem setReg_v (s : State) (x : RegIx) (b : Byte) : (s.setReg x b).v = s.v.set x.val b x.isLt := rfl
@[simp] theorem setReg_i (s : State) (x : RegIx) (b : Byte) : (s.setReg x b).i = s.i := rfl
@[simp] theorem setReg_pc (s : State) (x : RegIx) (b : Byte) : (s.setReg x b).pc = s.pc := rfl
@[simp] theorem setReg_stack (s : State) (x : RegIx) (b : Byte) : (s.setReg x b).stack = s.stack := rfl
@[simp] theorem setReg_sp (s : State) (x : RegIx) (b : Byte) : (s.setReg x b).sp = s.sp := rfl
@[simp] theorem setReg_dt (s : State) (x : RegIx) (b : Byte) : (s.setReg x b).dt = s.dt := rfl
@[simp] theorem setReg_fb (s : State) (x : RegIx) (b : Byte) : (s.setReg x b).fb = s.fb := rfl
@[simp] theorem setReg_keys (s : State) (x : RegIx) (b : Byte) : (s.setReg x b).keys = s.keys := rfl

@[simp] theorem advance_mem (s : State) : (advance s).mem = s.mem := rfl
@[simp] theorem advance_v (s : State) : (advance s).v = s.v := rfl
@[simp] theorem advance_i (s : State) : (advance s).i = s.i := rfl
@[simp] theorem advance_pc (s : State) : (advance s).pc = s.pc + 2#16 := rfl
@[simp] theorem advance_stack (s : State) : (advance s).stack = s.stack := rfl
@[simp] theorem advance_sp (s : State) : (advance s).sp = s.sp := rfl
@[simp] theorem advance_dt (s : State) : (advance s).dt = s.dt := rfl
@[simp] theorem advance_fb (s : State) : (advance s).fb = s.fb := rfl
@[simp] theorem advance_keys (s : State) : (advance s).keys = s.keys := rfl

@[simp] theorem skipIf_mem (c : Bool) (s : State) : (skipIf c s).mem = s.mem := rfl
@[simp] theorem skipIf_v (c : Bool) (s : State) : (skipIf c s).v = s.v := rfl
@[simp] theorem skipIf_i (c : Bool) (s : State) : (skipIf c s).i = s.i := rfl
@[simp] theorem skipIf_pc (c : Bool) (s : State) : (skipIf c s).pc = if c then s.pc + 4#16 else s.pc + 2#16 := rfl
@[simp] theorem skipIf_stack (c : Bool) (s : State) : (skipIf c s).stack = s.stack := rfl
@[simp] theorem skipIf_sp (c : Bool) (s : State) : (skipIf c s).sp = s.sp := rfl
@[simp] theorem skipIf_dt (c : Bool) (s : State) : (skipIf c s).dt = s.dt := rfl
@[simp] theorem skipIf_fb (c : Bool) (s : State) : (skipIf c s).fb = s.fb := rfl
@[simp] theorem skipIf_keys (c : Bool) (s : State) : (skipIf c s).keys = s.keys := rfl

@[simp] theorem jumpTo_mem (target : Word) (s : State) : (jumpTo target s).mem = s.mem := rfl
@[simp] theorem jumpTo_v (target : Word) (s : State) : (jumpTo target s).v = s.v := rfl
@[simp] theorem jumpTo_i (target : Word) (s : State) : (jumpTo target s).i = s.i := rfl
@[simp] theorem jumpTo_pc (target : Word) (s : State) : (jumpTo target s).pc = target := rfl
@[simp] theorem jumpTo_stack (target : Word) (s : State) : (jumpTo target s).stack = s.stack := rfl
@[simp] theorem jumpTo_sp (target : Word) (s : State) : (jumpTo target s).sp = s.sp := rfl
@[simp] theorem jumpTo_dt (target : Word) (s : State) : (jumpTo target s).dt = s.dt := rfl
@[simp] theorem jumpTo_fb (target : Word) (s : State) : (jumpTo target s).fb = s.fb := rfl
@[simp] theorem jumpTo_keys (target : Word) (s : State) : (jumpTo target s).keys = s.keys := rfl

@[simp] theorem popSlot_mem (s : State) : (popSlot s).mem = s.mem := rfl
@[simp] theorem popSlot_v (s : State) : (popSlot s).v = s.v := rfl
@[simp] theorem popSlot_i (s : State) : (popSlot s).i = s.i := rfl
@[simp] theorem popSlot_pc (s : State) : (popSlot s).pc = s.pc := rfl
@[simp] theorem popSlot_stack (s : State) : (popSlot s).stack = s.stack := rfl
@[simp] theorem popSlot_sp (s : State) : (popSlot s).sp = ⟨s.sp.val - 1, by omega⟩ := rfl
@[simp] theorem popSlot_dt (s : State) : (popSlot s).dt = s.dt := rfl
@[simp] theorem popSlot_fb (s : State) : (popSlot s).fb = s.fb := rfl
@[simp] theorem popSlot_keys (s : State) : (popSlot s).keys = s.keys := rfl

@[simp] theorem setCollision_mem (c : Bool) (s : State) : (setCollision c s).mem = s.mem := rfl
@[simp] theorem setCollision_v (c : Bool) (s : State) : (setCollision c s).v = s.v.set 15 (if c then 0x01#8 else 0x00#8) := rfl
@[simp] theorem setCollision_i (c : Bool) (s : State) : (setCollision c s).i = s.i := rfl
@[simp] theorem setCollision_pc (c : Bool) (s : State) : (setCollision c s).pc = s.pc := rfl
@[simp] theorem setCollision_stack (c : Bool) (s : State) : (setCollision c s).stack = s.stack := rfl
@[simp] theorem setCollision_sp (c : Bool) (s : State) : (setCollision c s).sp = s.sp := rfl
@[simp] theorem setCollision_dt (c : Bool) (s : State) : (setCollision c s).dt = s.dt := rfl
@[simp] theorem setCollision_fb (c : Bool) (s : State) : (setCollision c s).fb = s.fb := rfl
@[simp] theorem setCollision_keys (c : Bool) (s : State) : (setCollision c s).keys = s.keys := rfl

@[simp] theorem resetOp_mem (s : State) : (resetOp s).mem = s.mem := rfl
@[simp] theorem resetOp_v (s : State) : (resetOp s).v = State.reset.v := rfl
@[simp] theorem resetOp_i (s : State) : (resetOp s).i = State.reset.i := rfl
@[simp] theorem resetOp_pc (s : State) : (resetOp s).pc = State.reset.pc := rfl
@[simp] theorem resetOp_stack (s : State) : (resetOp s).stack = State.reset.stack := rfl
@[simp] theorem resetOp_sp (s : State) : (resetOp s).sp = State.reset.sp := rfl
@[simp] theorem resetOp_dt (s : State) : (resetOp s).dt = State.reset.dt := rfl
@[simp] theorem resetOp_fb (s : State) : (resetOp s).fb = State.reset.fb := rfl
@[simp] theorem resetOp_keys (s : State) : (resetOp s).keys = State.reset.keys := rfl

@[simp] theorem tickOp_mem (s : State) : (tickOp s).mem = s.mem := rfl
@[simp] theorem tickOp_v (s : State) : (tickOp s).v = s.v := rfl
@[simp] theorem tickOp_i (s : State) : (tickOp s).i = s.i := rfl
@[simp] theorem tickOp_pc (s : State) : (tickOp s).pc = s.pc := rfl
@[simp] theorem tickOp_stack (s : State) : (tickOp s).stack = s.stack := rfl
@[simp] theorem tickOp_sp (s : State) : (tickOp s).sp = s.sp := rfl
@[simp] theorem tickOp_dt (s : State) : (tickOp s).dt = if s.dt = 0x00#8 then s.dt else s.dt - 0x01#8 := rfl
@[simp] theorem tickOp_fb (s : State) : (tickOp s).fb = s.fb := rfl
@[simp] theorem tickOp_keys (s : State) : (tickOp s).keys = s.keys := rfl

@[simp] theorem setKeyOp_mem (k : KeyIx) (pressed : Bool) (s : State) : (setKeyOp k pressed s).mem = s.mem := rfl
@[simp] theorem setKeyOp_v (k : KeyIx) (pressed : Bool) (s : State) : (setKeyOp k pressed s).v = s.v := rfl
@[simp] theorem setKeyOp_i (k : KeyIx) (pressed : Bool) (s : State) : (setKeyOp k pressed s).i = s.i := rfl
@[simp] theorem setKeyOp_pc (k : KeyIx) (pressed : Bool) (s : State) : (setKeyOp k pressed s).pc = s.pc := rfl
@[simp] theorem setKeyOp_stack (k : KeyIx) (pressed : Bool) (s : State) : (setKeyOp k pressed s).stack = s.stack := rfl
@[simp] theorem setKeyOp_sp (k : KeyIx) (pressed : Bool) (s : State) : (setKeyOp k pressed s).sp = s.sp := rfl
@[simp] theorem setKeyOp_dt (k : KeyIx) (pressed : Bool) (s : State) : (setKeyOp k pressed s).dt = s.dt := rfl
@[simp] theorem setKeyOp_fb (k : KeyIx) (pressed : Bool) (s : State) : (setKeyOp k pressed s).fb = s.fb := rfl
@[simp] theorem setKeyOp_keys (k : KeyIx) (pressed : Bool) (s : State) : (setKeyOp k pressed s).keys = s.keys.set k.val pressed k.isLt := rfl

@[simp] theorem withFetchWord_mem (s : State) (nbits w : Nat) : (s.withFetchWord nbits w).mem = placeWord nbits w s := rfl
@[simp] theorem withFetchWord_v (s : State) (nbits w : Nat) : (s.withFetchWord nbits w).v = s.v := rfl
@[simp] theorem withFetchWord_i (s : State) (nbits w : Nat) : (s.withFetchWord nbits w).i = s.i := rfl
@[simp] theorem withFetchWord_pc (s : State) (nbits w : Nat) : (s.withFetchWord nbits w).pc = s.pc := rfl
@[simp] theorem withFetchWord_stack (s : State) (nbits w : Nat) : (s.withFetchWord nbits w).stack = s.stack := rfl
@[simp] theorem withFetchWord_sp (s : State) (nbits w : Nat) : (s.withFetchWord nbits w).sp = s.sp := rfl
@[simp] theorem withFetchWord_dt (s : State) (nbits w : Nat) : (s.withFetchWord nbits w).dt = s.dt := rfl
@[simp] theorem withFetchWord_fb (s : State) (nbits w : Nat) : (s.withFetchWord nbits w).fb = s.fb := rfl
@[simp] theorem withFetchWord_keys (s : State) (nbits w : Nat) : (s.withFetchWord nbits w).keys = s.keys := rfl

end Sys2Proof.Machine
end

