-- ==== Sys2Proof/Laws/Ops.lean ====
section
/-! SUPPORT. One lemma for each shared operation over registers, stack, framebuffer and keypad: everything it can do. -/

namespace Sys2Proof.Machine

/-! ### After power-on -/

@[simp] theorem reg_reset (x : RegIx) : State.reset.reg x = 0x00#8 := by simp [State.reg, State.reset]
@[simp] theorem slot_reset (k : SlotIx) : State.reset.slot k = 0x0000#16 := by simp [State.slot, State.reset]
@[simp] theorem key_reset (k : KeyIx) : State.reset.key k = false := by simp [State.key, State.reset]
@[simp] theorem pixel_reset (c : Column) (r : Row) : State.reset.pixel c r = false := by
  simp [State.pixel, Framebuffer.pixel, State.reset]

/-! ### Widths -/

@[simp] theorem zext16_toNat (nnn : Addr) : (zext16 nnn).toNat = nnn.toNat := by
  rw [zext16, BitVec.toNat_setWidth]; omega

@[simp] theorem zextReg_toNat (x : RegIx) (s : State) : (zextReg x s).toNat = (s.reg x).toNat := by
  rw [zextReg, BitVec.toNat_setWidth]; omega

@[simp] theorem zextKey_toNat (k : KeyIx) : (zextKey k).toNat = k.val := by
  rw [zextKey, BitVec.toNat_ofNat]; omega

/-! ### Registers -/

/-- A register reads what was last written to it, and the others are left alone. -/
theorem reg_setReg (s : State) (x y : RegIx) (b : Byte) : (s.setReg x b).reg y = if y = x then b else s.reg y := by
  simp only [State.reg, State.setReg, Fin.getElem_fin, Vector.getElem_set]
  by_cases h : y = x
  · subst h; simp
  · have : x.val ≠ y.val := fun e => h (Fin.ext e.symm)
    simp [h, this]

@[simp] theorem reg_setReg_same (s : State) (x : RegIx) (b : Byte) : (s.setReg x b).reg x = b := by simp [reg_setReg]

theorem reg_setReg_ne (s : State) {x y : RegIx} (h : y ≠ x) (b : Byte) : (s.setReg x b).reg y = s.reg y := by
  simp [reg_setReg, h]

@[simp] theorem reg_advance (s : State) (y : RegIx) : (advance s).reg y = s.reg y := rfl
@[simp] theorem reg_skipIf (c : Bool) (s : State) (y : RegIx) : (skipIf c s).reg y = s.reg y := rfl
@[simp] theorem reg_jumpTo (w : Word) (s : State) (y : RegIx) : (jumpTo w s).reg y = s.reg y := rfl
@[simp] theorem reg_popSlot (s : State) (y : RegIx) : (popSlot s).reg y = s.reg y := rfl

theorem reg_setCollision (c : Bool) (s : State) (y : RegIx) :
    (setCollision c s).reg y = if y = 15 then (if c then 0x01#8 else 0x00#8) else s.reg y :=
  reg_setReg s 15 y _

/-! ### Stack -/

@[simp] theorem slot_setReg (s : State) (x : RegIx) (b : Byte) (k : SlotIx) : (s.setReg x b).slot k = s.slot k := rfl
@[simp] theorem slot_advance (s : State) (k : SlotIx) : (advance s).slot k = s.slot k := rfl
@[simp] theorem slot_skipIf (c : Bool) (s : State) (k : SlotIx) : (skipIf c s).slot k = s.slot k := rfl
@[simp] theorem slot_jumpTo (w : Word) (s : State) (k : SlotIx) : (jumpTo w s).slot k = s.slot k := rfl
@[simp] theorem slot_popSlot (s : State) (k : SlotIx) : (popSlot s).slot k = s.slot k := rfl
@[simp] theorem slot_setCollision (c : Bool) (s : State) (k : SlotIx) : (setCollision c s).slot k = s.slot k := rfl

/-- A push: none exactly on a full stack; else slot `SP` holds the value, the other slots and items are as before, `SP` is one
up. -/
theorem pushSlot_cases (a : Word) (s : State) :
    (s.sp.val = 16 ∧ pushSlot a s = none) ∨
    (s.sp.val < 16 ∧ ∃ t : State, pushSlot a s = some t ∧ t.sp.val = s.sp.val + 1 ∧
      (∀ k : SlotIx, t.slot k = if k.val = s.sp.val then a else s.slot k) ∧
      t.mem = s.mem ∧ t.v = s.v ∧ t.i = s.i ∧ t.pc = s.pc ∧ t.dt = s.dt ∧ t.fb = s.fb ∧ t.keys = s.keys) := by
  by_cases h : s.sp.val < 16
  · have e : pushSlot a s = some
        { s with stack := s.stack.set s.sp.val a h, sp := ⟨s.sp.val + 1, Nat.succ_lt_succ h⟩ } := by rw [pushSlot, dif_pos h]
    refine .inr ⟨h, _, e, rfl, fun k => ?_, rfl, rfl, rfl, rfl, rfl, rfl, rfl⟩
    simp only [State.slot, Fin.getElem_fin, Vector.getElem_set, eq_comm]
  · exact .inl ⟨by omega, by rw [pushSlot, dif_neg h]⟩

/-- The top slot: none exactly on an empty stack; else the slot below `SP`. -/
theorem topSlot_cases (s : State) :
    (s.sp.val = 0 ∧ topSlot s = none) ∨ (∃ k : SlotIx, k.val + 1 = s.sp.val ∧ topSlot s = some (s.slot k)) := by
  by_cases h : 0 < s.sp.val
  · refine .inr ⟨⟨s.sp.val - 1, by omega⟩, by simp only; omega, by rw [topSlot, dif_pos h]⟩
  · exact .inl ⟨by omega, by rw [topSlot, dif_neg h]⟩

/-! ### Framebuffer -/

/-- A pixel reads what was last set, and the others are left alone. -/
theorem pixel_setPixel (fb : Framebuffer) (c c' : Column) (r r' : Row) (on : Bool) :
    (fb.setPixel c r on).pixel c' r' = if c' = c ∧ r' = r then on else fb.pixel c' r' := by
  simp only [Framebuffer.pixel, Framebuffer.setPixel, Fin.getElem_fin, Vector.getElem_set]
  by_cases hr : r' = r
  · subst hr
    by_cases hc : c' = c
    · subst hc; simp
    · have : c.val ≠ c'.val := fun e => hc (Fin.ext e.symm)
      simp [hc, this]
  · have : r.val ≠ r'.val := fun e => hr (Fin.ext e.symm)
    simp [hr, this]

@[simp] theorem pixel_clear (c : Column) (r : Row) : Framebuffer.clear.pixel c r = false := by
  simp [Framebuffer.pixel, Framebuffer.clear]

/-- Framebuffers with equal pixels are equal. -/
theorem framebuffer_ext {a b : Framebuffer} (h : ∀ c r, a.pixel c r = b.pixel c r) : a = b := by
  refine Vector.ext fun r hr => Vector.ext fun c hc => ?_
  exact h ⟨c, hc⟩ ⟨r, hr⟩

@[simp] theorem pixel_setReg (s : State) (x : RegIx) (b : Byte) (c : Column) (r : Row) :
    (s.setReg x b).pixel c r = s.pixel c r := rfl
@[simp] theorem pixel_advance (s : State) (c : Column) (r : Row) : (advance s).pixel c r = s.pixel c r := rfl
@[simp] theorem pixel_skipIf (b : Bool) (s : State) (c : Column) (r : Row) : (skipIf b s).pixel c r = s.pixel c r := rfl
@[simp] theorem pixel_jumpTo (w : Word) (s : State) (c : Column) (r : Row) : (jumpTo w s).pixel c r = s.pixel c r := rfl
@[simp] theorem pixel_popSlot (s : State) (c : Column) (r : Row) : (popSlot s).pixel c r = s.pixel c r := rfl
@[simp] theorem pixel_setCollision (b : Bool) (s : State) (c : Column) (r : Row) :
    (setCollision b s).pixel c r = s.pixel c r := rfl

/-! ### Keypad -/

@[simp] theorem key_setReg (s : State) (x : RegIx) (b : Byte) (k : KeyIx) : (s.setReg x b).key k = s.key k := rfl
@[simp] theorem key_advance (s : State) (k : KeyIx) : (advance s).key k = s.key k := rfl
@[simp] theorem key_skipIf (b : Bool) (s : State) (k : KeyIx) : (skipIf b s).key k = s.key k := rfl
@[simp] theorem key_jumpTo (w : Word) (s : State) (k : KeyIx) : (jumpTo w s).key k = s.key k := rfl
@[simp] theorem key_popSlot (s : State) (k : KeyIx) : (popSlot s).key k = s.key k := rfl
@[simp] theorem key_setCollision (b : Bool) (s : State) (k : KeyIx) : (setCollision b s).key k = s.key k := rfl

/-- A key reads what the host last wrote, and the others are left alone. -/
theorem key_setKeyOp (k k' : KeyIx) (pressed : Bool) (s : State) :
    (setKeyOp k pressed s).key k' = if k = k' then pressed else s.key k' := by
  simp only [State.key, setKeyOp, Fin.getElem_fin, Vector.getElem_set]
  by_cases h : k = k'
  · subst h; simp
  · have : k.val ≠ k'.val := fun e => h (Fin.ext e)
    simp [h, this]

/-- The scan for a key: none exactly when no key is pressed; else the least pressed key. -/
theorem lowestKey_cases (s : State) :
    ((∀ k : KeyIx, s.key k = false) ∧ lowestKey s = none) ∨
    (∃ k : KeyIx, s.key k = true ∧ (∀ j : KeyIx, j < k → s.key j = false) ∧ lowestKey s = some k) := by
  cases h : lowestKey s with
  | none =>
    refine .inl ⟨fun k => ?_, rfl⟩
    have := List.find?_eq_none.mp h k (List.mem_finRange k)
    simpa using this
  | some k =>
    refine .inr ⟨k, by simpa using List.find?_some h, fun j hj => ?_, rfl⟩
    obtain ⟨-, as, bs, hl, hn⟩ := List.find?_eq_some_iff_append.mp h
    have hs : (List.finRange 16).Pairwise (· < ·) := List.pairwise_lt_finRange 16
    have hjm : j ∈ as := by
      have hm : j ∈ as ++ k :: bs := hl ▸ List.mem_finRange j
      rw [hl, List.pairwise_append] at hs
      rcases List.mem_append.mp hm with hm | hm
      · exact hm
      · rcases List.mem_cons.mp hm with rfl | hm
        · exact absurd hj (lt_irrefl _)
        · exact absurd hj (not_lt.mpr (le_of_lt ((List.pairwise_cons.mp hs.2.1).1 j hm)))
    simpa using hn j hjm

/-- The key operand: the key that `V[x]` names, or the bounds violation. -/
theorem keyOperand_cases (x : RegIx) (s : State) :
    (∃ k : KeyIx, k.val = (s.reg x).toNat ∧ keyOperand x s = .ok k) ∨
    ((s.reg x).toNat > 15 ∧ keyOperand x s = .error (.boundsViolation (s.reg x).toNat)) := by
  by_cases h : (s.reg x).toNat < 16
  · exact .inl ⟨⟨_, h⟩, rfl, by rw [keyOperand, dif_pos h]⟩
  · exact .inr ⟨by omega, by rw [keyOperand, dif_neg h]⟩

end Sys2Proof.Machine
end

