-- ==== Sys2Proof/Laws/Display.lean ====
section
/-! SUPPORT. What drawing does, as a function of the pixel: the sprite's bits map to distinct pixels (43_display.md R138), so each
pixel is inverted exactly where a sprite bit 1 falls, and the collision is a lit pixel under such a bit. -/

namespace Sys2Proof.Machine

/-- Sprite columns less than 64 apart wrap to distinct pixels (R138). -/
theorem wrapColumn_inj {px c c' : Nat} (hc : c < 8) (hc' : c' < 8) (h : wrapColumn (px + c) = wrapColumn (px + c')) : c = c' := by
  have := congrArg Fin.val h
  simp only [wrapColumn, Fin.val_ofNat] at this
  omega

/-- Sprite rows less than 32 apart wrap to distinct pixels (R138). -/
theorem wrapRow_ne {py k : Nat} (h0 : 0 < k) (hk : k < 32) : wrapRow (py + k) ≠ wrapRow py := by
  intro h
  have := congrArg Fin.val h
  simp only [wrapRow, Fin.val_ofNat] at this
  omega

/-- One row's bits: a pixel is inverted exactly when a listed bit 1 maps to it. -/
theorem drawBits_pixel (px py : Nat) (b : Byte) (cs : List Nat) (fb : Framebuffer) (h8 : ∀ c ∈ cs, c < 8) (hn : cs.Nodup)
    (c : Column) (r : Row) :
    (drawBits px py b cs fb).1.pixel c r =
      (fb.pixel c r ^^ decide (∃ j ∈ cs, c = wrapColumn (px + j) ∧ r = wrapRow py ∧ b.getLsbD (7 - j) = true)) := by
  induction cs generalizing fb with
  | nil => simp [drawBits]
  | cons d ds ih =>
    have hd := h8 d (by simp)
    have hds : ∀ c ∈ ds, c < 8 := fun c hc => h8 c (by simp [hc])
    obtain ⟨hdn, hnd⟩ := List.nodup_cons.mp hn
    simp only [drawBits]
    rw [ih _ hds hnd, pixel_setPixel]
    by_cases hcr : c = wrapColumn (px + d) ∧ r = wrapRow py
    · have none : ¬ ∃ j ∈ ds, c = wrapColumn (px + j) ∧ r = wrapRow py ∧ b.getLsbD (7 - j) = true := by
        rintro ⟨j, hj, hcj, -, -⟩
        have := wrapColumn_inj hd (hds j hj) (hcr.1.symm.trans hcj)
        exact hdn (this ▸ hj)
      obtain ⟨rfl, rfl⟩ := hcr
      simp only [true_and] at none
      simp [none]
    · have : ¬ (c = wrapColumn (px + d) ∧ r = wrapRow py ∧ b.getLsbD (7 - d) = true) := fun h => hcr ⟨h.1, h.2.1⟩
      simp only [hcr, if_false, List.mem_cons, exists_eq_or_imp, this, false_or]

/-- One row's collision: some listed bit 1 falls on a pixel that was lit before the row. -/
theorem drawBits_collision (px py : Nat) (b : Byte) (cs : List Nat) (fb : Framebuffer) (h8 : ∀ c ∈ cs, c < 8) (hn : cs.Nodup) :
    (drawBits px py b cs fb).2 = true ↔
      ∃ j ∈ cs, b.getLsbD (7 - j) = true ∧ fb.pixel (wrapColumn (px + j)) (wrapRow py) = true := by
  induction cs generalizing fb with
  | nil => simp [drawBits]
  | cons d ds ih =>
    have hd := h8 d (by simp)
    have hds : ∀ c ∈ ds, c < 8 := fun c hc => h8 c (by simp [hc])
    obtain ⟨hdn, hnd⟩ := List.nodup_cons.mp hn
    simp only [drawBits, Bool.or_eq_true, Bool.and_eq_true, ih _ hds hnd, List.mem_cons, exists_eq_or_imp]
    refine or_congr Iff.rfl ⟨?_, ?_⟩ <;> rintro ⟨j, hj, hb, hp⟩ <;> refine ⟨j, hj, hb, ?_⟩
    all_goals
      have hne : wrapColumn (px + j) ≠ wrapColumn (px + d) := fun e => hdn (wrapColumn_inj (hds j hj) hd e ▸ hj)
      simpa [pixel_setPixel, hne] using hp

/-- The sprite rows `bytes` from `(px, py)` put a bit 1 on pixel `(c, r)`. -/
def RowsCover (px py : Nat) (bytes : List Byte) (c : Column) (r : Row) : Prop :=
  ∃ k, k < bytes.length ∧ ∃ j < 8, c = wrapColumn (px + j) ∧ r = wrapRow (py + k) ∧
    (bytes.getD k 0x00#8).getLsbD (7 - j) = true

theorem rowsCover_cons (px py : Nat) (b : Byte) (bs : List Byte) (c : Column) (r : Row) :
    RowsCover px py (b :: bs) c r ↔
      (∃ j < 8, c = wrapColumn (px + j) ∧ r = wrapRow py ∧ b.getLsbD (7 - j) = true) ∨ RowsCover px (py + 1) bs c r := by
  constructor
  · rintro ⟨k, hk, j, hj, hc, hr, hb⟩
    cases k with
    | zero => exact .inl ⟨j, hj, hc, hr, by simpa using hb⟩
    | succ k =>
      exact .inr ⟨k, by simpa using hk, j, hj, hc, by rw [hr, Nat.add_assoc, Nat.add_comm 1], by simpa using hb⟩
  · rintro (⟨j, hj, hc, hr, hb⟩ | ⟨k, hk, j, hj, hc, hr, hb⟩)
    · exact ⟨0, by simp, j, hj, hc, hr, by simpa using hb⟩
    · exact ⟨k + 1, by simpa using hk, j, hj, hc, by rw [hr, Nat.add_assoc, Nat.add_comm 1], by simpa using hb⟩

/-- The rows after the first touch none of the first row's pixels (R138). -/
theorem rowsCover_later_row {px py : Nat} {bs : List Byte} {c : Column} {r : Row} (hlen : bs.length < 32)
    (h : RowsCover px (py + 1) bs c r) : r ≠ wrapRow py := by
  obtain ⟨k, hk, j, -, -, hr, -⟩ := h
  rw [hr, Nat.add_assoc]
  exact wrapRow_ne (by omega) (by omega)

/-- A whole sprite: a pixel is inverted exactly when a sprite bit 1 maps to it (R134, R135, R138). -/
theorem drawRows_pixel (px py : Nat) (bytes : List Byte) (fb : Framebuffer) (hlen : bytes.length < 32) (c : Column) (r : Row) :
    (RowsCover px py bytes c r → (drawRows px py bytes fb).1.pixel c r = !fb.pixel c r) ∧
    (¬ RowsCover px py bytes c r → (drawRows px py bytes fb).1.pixel c r = fb.pixel c r) := by
  induction bytes generalizing py fb with
  | nil => simp [drawRows, RowsCover]
  | cons b bs ih =>
    simp only [List.length_cons] at hlen
    have hrow : (drawRow px py b fb).1.pixel c r = (fb.pixel c r ^^
        decide (∃ j ∈ List.range 8, c = wrapColumn (px + j) ∧ r = wrapRow py ∧ b.getLsbD (7 - j) = true)) :=
      drawBits_pixel _ _ _ _ _ (by simp) List.nodup_range c r
    simp only [List.mem_range] at hrow
    obtain ⟨on, off⟩ := ih (py + 1) (drawRow px py b fb).1 (by omega)
    simp only [drawRows, rowsCover_cons]
    by_cases h1 : ∃ j < 8, c = wrapColumn (px + j) ∧ r = wrapRow py ∧ b.getLsbD (7 - j) = true
    · have h2 : ¬ RowsCover px (py + 1) bs c r := fun h => by
        obtain ⟨-, -, -, hr, -⟩ := h1
        exact rowsCover_later_row (by omega) h hr
      simp [h1, off h2, hrow]
    · simp only [h1, decide_false, Bool.xor_false] at hrow
      simp only [h1, false_or]
      exact ⟨fun h => by rw [on h, hrow], fun h => by rw [off h, hrow]⟩

/-- A whole sprite's collision: some sprite bit 1 falls on a pixel that was lit before the draw (R136, R138). -/
theorem drawRows_collision (px py : Nat) (bytes : List Byte) (fb : Framebuffer) (hlen : bytes.length < 32) :
    (drawRows px py bytes fb).2 = true ↔ ∃ c r, RowsCover px py bytes c r ∧ fb.pixel c r = true := by
  induction bytes generalizing py fb with
  | nil => simp [drawRows, RowsCover]
  | cons b bs ih =>
    simp only [List.length_cons] at hlen
    have hrow : (drawRow px py b fb).2 = true ↔
        ∃ c r, (∃ j < 8, c = wrapColumn (px + j) ∧ r = wrapRow py ∧ b.getLsbD (7 - j) = true) ∧ fb.pixel c r = true := by
      rw [drawRow, drawBits_collision _ _ _ _ _ (by simp) List.nodup_range]
      simp only [List.mem_range, Config.spriteWidth]
      constructor
      · rintro ⟨j, hj, hb, hp⟩
        exact ⟨_, _, ⟨j, hj, rfl, rfl, hb⟩, hp⟩
      · rintro ⟨c, r, ⟨j, hj, rfl, rfl, hb⟩, hp⟩
        exact ⟨j, hj, hb, hp⟩
    have hsame : ∀ c r, RowsCover px (py + 1) bs c r → (drawRow px py b fb).1.pixel c r = fb.pixel c r := by
      intro c r h
      have hr := rowsCover_later_row (by omega) h
      rw [drawRow, drawBits_pixel _ _ _ _ _ (by simp) List.nodup_range]
      simp [hr]
    simp only [drawRows, Bool.or_eq_true, hrow, ih (py + 1) _ (by omega : bs.length < 32)]
    constructor
    · rintro (⟨c, r, h, hp⟩ | ⟨c, r, h, hp⟩)
      · exact ⟨c, r, (rowsCover_cons ..).mpr (.inl h), hp⟩
      · exact ⟨c, r, (rowsCover_cons ..).mpr (.inr h), (hsame c r h) ▸ hp⟩
    · rintro ⟨c, r, h, hp⟩
      rcases (rowsCover_cons ..).mp h with h | h
      · exact .inl ⟨c, r, h, hp⟩
      · exact .inr ⟨c, r, h, (hsame c r h).symm ▸ hp⟩

theorem getD_bytesAt (m : Memory) {addr n k : Nat} (h : k < n) : (m.bytesAt addr n).getD k 0x00#8 = m.read (addr + k) := by
  simp [Memory.bytesAt, h]

/-- The sprite of `DRW Vx,Vy,n` covers a pixel exactly when its row bytes do. -/
theorem rowsCover_iff (s : State) (x y : RegIx) (n : Nat) (c : Column) (r : Row) :
    RowsCover (s.reg x).toNat (s.reg y).toNat (s.mem.bytesAt s.i.toNat n) c r ↔ SpriteCovers s x y n c r := by
  simp only [RowsCover, SpriteCovers, length_bytesAt, wrapColumn, wrapRow, Fin.ext_iff, Fin.val_ofNat]
  refine exists_congr fun k => and_congr_right fun hk => ?_
  rw [getD_bytesAt _ hk]

end Sys2Proof.Machine
end

