-- ==== Sys2Proof/Laws/PerInstr.lean ====
section
/-! SUPPORT. The family RowSelected, one lemma for each constructor of Instr: the encoded word of a well-formed instruction selects
the instruction's own row of the opcode table (spec 30_encoding.md R75, R79). -/

namespace Sys2Proof.Laws.RowSelected

/-- The encoder's word selects the row that the table gives the instruction, and that row is in the table. -/
def Statement (i : Instr) : Prop :=
  i.wellFormed = true → (rowOf i).selects (encode i) = true ∧ rowOf i ∈ opcodeTable

/-- For a row of mask 0xF000 the first nibble decides. -/
theorem of_F000 {i : Instr} (hm : (rowOf i).mask = 0xF000#16) (ht : rowOf i ∈ opcodeTable)
    (hn : i.wellFormed = true → encodeNat i / 4096 * 4096 = (rowOf i).fixed.toNat) : Statement i :=
  fun h => ⟨(selects_iff _ _).mpr (by rw [hm, and_F000, encode_toNat h, hn h]), ht⟩

/-- For a row of mask 0xF0FF the first nibble and the last byte decide. -/
theorem of_F0FF {i : Instr} (hm : (rowOf i).mask = 0xF0FF#16) (ht : rowOf i ∈ opcodeTable)
    (hn : i.wellFormed = true → encodeNat i / 4096 * 4096 + encodeNat i % 256 = (rowOf i).fixed.toNat) : Statement i :=
  fun h => ⟨(selects_iff _ _).mpr (by rw [hm, and_F0FF, encode_toNat h, hn h]), ht⟩

theorem cls : Statement .cls := fun _ => ⟨by decide, by decide⟩

theorem ret : Statement .ret := fun _ => ⟨by decide, by decide⟩

theorem jp (nnn : Addr) : Statement (.jp nnn) :=
  of_F000 rfl (by simp [opcodeTable, rowOf]) fun _ => by simp only [encodeNat, rowOf, BitVec.toNat_ofNat]; omega

theorem call (nnn : Addr) : Statement (.call nnn) :=
  of_F000 rfl (by simp [opcodeTable, rowOf]) fun _ => by simp only [encodeNat, rowOf, BitVec.toNat_ofNat]; omega

theorem seByte (x : RegIx) (kk : Byte) : Statement (.seByte x kk) :=
  of_F000 rfl (by simp [opcodeTable, rowOf]) fun _ => by simp only [encodeNat, rowOf, BitVec.toNat_ofNat]; omega

theorem sneByte (x : RegIx) (kk : Byte) : Statement (.sneByte x kk) :=
  of_F000 rfl (by simp [opcodeTable, rowOf]) fun _ => by simp only [encodeNat, rowOf, BitVec.toNat_ofNat]; omega

theorem ldByte (x : RegIx) (kk : Byte) : Statement (.ldByte x kk) :=
  of_F000 rfl (by simp [opcodeTable, rowOf]) fun _ => by simp only [encodeNat, rowOf, BitVec.toNat_ofNat]; omega

theorem addByte (x : RegIx) (kk : Byte) : Statement (.addByte x kk) :=
  of_F000 rfl (by simp [opcodeTable, rowOf]) fun _ => by simp only [encodeNat, rowOf, BitVec.toNat_ofNat]; omega

theorem ldReg (x y : RegIx) : Statement (.ldReg x y) :=
  fun h => ⟨(selects_iff _ _).mpr (by simp only [rowOf, and_F00F, encode_toNat h, encodeNat, BitVec.toNat_ofNat]; omega),
    by simp [opcodeTable, rowOf]⟩

theorem ldI (nnn : Addr) : Statement (.ldI nnn) :=
  of_F000 rfl (by simp [opcodeTable, rowOf]) fun _ => by simp only [encodeNat, rowOf, BitVec.toNat_ofNat]; omega

theorem drw (x y : RegIx) (n : Nat) : Statement (.drw x y n) :=
  of_F000 rfl (by simp [opcodeTable, rowOf]) fun h => by
    have hn : n ≤ 15 := by simpa [Instr.wellFormed] using h
    simp only [encodeNat, rowOf, BitVec.toNat_ofNat]; omega

theorem sknp (x : RegIx) : Statement (.sknp x) :=
  of_F0FF rfl (by simp [opcodeTable, rowOf]) fun _ => by simp only [encodeNat, rowOf, BitVec.toNat_ofNat]; omega

theorem ldDt (x : RegIx) : Statement (.ldDt x) :=
  of_F0FF rfl (by simp [opcodeTable, rowOf]) fun _ => by simp only [encodeNat, rowOf, BitVec.toNat_ofNat]; omega

theorem addI (x : RegIx) : Statement (.addI x) :=
  of_F0FF rfl (by simp [opcodeTable, rowOf]) fun _ => by simp only [encodeNat, rowOf, BitVec.toNat_ofNat]; omega

theorem ldKey (x : RegIx) : Statement (.ldKey x) :=
  of_F0FF rfl (by simp [opcodeTable, rowOf]) fun _ => by simp only [encodeNat, rowOf, BitVec.toNat_ofNat]; omega

end Sys2Proof.Laws.RowSelected
end

