-- ==== Sys2Proof/Laws/Step.lean ====
section
/-! SUPPORT. What fetch, execute and a step can do, said once: each lemma lists every case, with its guard and its outcome. -/

namespace Sys2Proof.Machine

/-- The fetch: the word at `PC` up to 0xFFE, and the bounds violation above (R91). -/
theorem fetch_cases (s : State) :
    (s.pc.toNat ≤ 0xFFE ∧ fetch s = .ok (wordAtPc s)) ∨
    (s.pc.toNat > 0xFFE ∧
      fetch s = .error (.boundsViolation (if s.pc.toNat > 0xFFF then s.pc.toNat else 0x1000))) := by
  rcases memRead_cases s.pc.toNat Config.insnBytes s with ⟨h, e⟩ | ⟨-, h, e⟩
  · refine .inl ⟨by simp only [Config.insnBytes] at h; omega, ?_⟩
    simp only [fetch, e]
    rw [show Config.insnBytes = 0 + 1 + 1 from rfl, bytesAt_succ, bytesAt_succ, bytesAt_zero, wordOfBytes_pair]
    rfl
  · exact .inr ⟨by simp only [Config.insnBytes] at h; omega, by simp only [fetch, e]⟩

/-- A step: a fetch fault, a decode fault, or the decoded instruction's execution (R90 to R93, R187). -/
theorem step_cases (s : State) :
    (s.pc.toNat > 0xFFE ∧
      step s = .fault (.boundsViolation (if s.pc.toNat > 0xFFF then s.pc.toNat else 0x1000))) ∨
    (s.pc.toNat ≤ 0xFFE ∧ (∃ e, decodeWord (wordAtPc s) = .error e) ∧ step s = .fault (.unknownInstruction (wordAtPc s))) ∨
    (s.pc.toNat ≤ 0xFFE ∧ ∃ i, decodeWord (wordAtPc s) = .ok i ∧ step s = exec i s) := by
  rcases fetch_cases s with ⟨h, e⟩ | ⟨h, e⟩
  · cases hd : decodeWord (wordAtPc s) with
    | error d => exact .inr (.inl ⟨h, ⟨d, rfl⟩, by simp only [step, e, hd, raise]⟩)
    | ok i => exact .inr (.inr ⟨h, i, rfl, by simp only [step, e, hd]⟩)
  · exact .inl ⟨h, by simp only [step, e, raise]⟩

/-- A step that answers a next state has fetched below 0xFFF, decoded and executed. -/
theorem step_next {s t : State} (h : step s = .next t) :
    s.pc.toNat ≤ 0xFFE ∧ ∃ i, decodeWord (wordAtPc s) = .ok i ∧ exec i s = .next t := by
  rcases step_cases s with ⟨-, e⟩ | ⟨-, -, e⟩ | ⟨hp, i, hd, e⟩
  · rw [e] at h; cases h
  · rw [e] at h; cases h
  · exact ⟨hp, i, hd, e ▸ h⟩

/-! ### The instructions that do not always go on -/

/-- `RET`: underflow, a popped address that cannot be advanced, or the return (R110). -/
theorem execRet_cases (s : State) :
    (s.sp.val = 0 ∧ exec .ret s = .fault .stackUnderflow) ∨
    (∃ k : SlotIx, k.val + 1 = s.sp.val ∧
      (((s.slot k).toNat > 0xFFFD ∧ exec .ret s = .fault (.boundsViolation (s.slot k).toNat)) ∨
        ((s.slot k).toNat ≤ 0xFFFD ∧ exec .ret s = .next (jumpTo (s.slot k + 2#16) (popSlot s))))) := by
  rcases topSlot_cases s with ⟨h, e⟩ | ⟨k, hk, e⟩
  · exact .inl ⟨h, by simp only [exec, execRet, e, raise]⟩
  · refine .inr ⟨k, hk, ?_⟩
    by_cases hb : (s.slot k).toNat + 2 > 0xFFFF
    · exact .inl ⟨by omega, by simp only [exec, execRet, e, hb, if_true, raise]⟩
    · exact .inr ⟨by omega, by simp only [exec, execRet, e, hb, if_false]⟩

/-- `CALL`: overflow, or the push and the jump (R112). -/
theorem execCall_cases (nnn : Addr) (s : State) :
    (s.sp.val = 16 ∧ exec (.call nnn) s = .fault .stackOverflow) ∨
    (s.sp.val < 16 ∧ ∃ t : State, exec (.call nnn) s = .next (jumpTo (zext16 nnn) t) ∧ t.sp.val = s.sp.val + 1 ∧
      (∀ k : SlotIx, t.slot k = if k.val = s.sp.val then s.pc else s.slot k) ∧
      t.mem = s.mem ∧ t.v = s.v ∧ t.i = s.i ∧ t.pc = s.pc ∧ t.dt = s.dt ∧ t.fb = s.fb ∧ t.keys = s.keys) := by
  rcases pushSlot_cases s.pc s with ⟨h, e⟩ | ⟨h, t, e, h1, h2, h3⟩
  · exact .inl ⟨h, by simp only [exec, execCall, e, raise]⟩
  · exact .inr ⟨h, t, by simp only [exec, execCall, e], h1, h2, h3⟩

/-- `SKNP`: the key's level decides the skip, or `V[x]` names no key (R150). -/
theorem execSknp_cases (x : RegIx) (s : State) :
    (∃ k : KeyIx, k.val = (s.reg x).toNat ∧ exec (.sknp x) s = .next (skipIf (!s.key k) s)) ∨
    ((s.reg x).toNat > 15 ∧ exec (.sknp x) s = .fault (.boundsViolation (s.reg x).toNat)) := by
  rcases keyOperand_cases x s with ⟨k, hk, e⟩ | ⟨h, e⟩
  · exact .inl ⟨k, hk, by simp only [exec, execSknp, e]⟩
  · exact .inr ⟨h, by simp only [exec, execSknp, e, raise]⟩

/-- `LD Vx,K`: the stall, or the least pressed key (R151). -/
theorem execLdKey_cases (x : RegIx) (s : State) :
    ((∀ k : KeyIx, s.key k = false) ∧ exec (.ldKey x) s = .next s) ∨
    (∃ k : KeyIx, s.key k = true ∧ (∀ j : KeyIx, j < k → s.key j = false) ∧
      exec (.ldKey x) s = .next (advance (s.setReg x (zextKey k)))) := by
  rcases lowestKey_cases s with ⟨h, e⟩ | ⟨k, hk, hl, e⟩
  · exact .inl ⟨h, by simp only [exec, execLdKey, e]⟩
  · exact .inr ⟨k, hk, hl, by simp only [exec, execLdKey, e]⟩

/-- What `DRW` draws: the framebuffer and the collision. -/
def drawnBy (x y : RegIx) (n : Nat) (s : State) : Framebuffer × Bool :=
  drawRows (s.reg x).toNat (s.reg y).toNat (s.mem.bytesAt s.i.toNat n) s.fb

/-- `DRW`: the sprite data lie in memory and it is drawn, or they do not and nothing happens (R131, R133, R137). -/
theorem execDrw_cases (x y : RegIx) (n : Nat) (s : State) :
    (SpriteInMemory s n ∧ exec (.drw x y n) s =
      .next (advance (setCollision (drawnBy x y n s).2 { s with fb := (drawnBy x y n s).1 }))) ∨
    (0 < n ∧ s.i.toNat + n - 1 > 0xFFF ∧
      exec (.drw x y n) s = .fault (.boundsViolation (if s.i.toNat > 0xFFF then s.i.toNat else 0x1000))) := by
  rcases memRead_cases s.i.toNat n s with ⟨h, e⟩ | ⟨h0, h, e⟩
  · exact .inl ⟨h, by simp only [exec, execDrw, spriteBytes, spritePosition, e, drawnBy]⟩
  · exact .inr ⟨h0, h, by simp only [exec, execDrw, spriteBytes, e, raise]⟩

/-- No instruction is refused. -/
theorem exec_not_refused (i : Instr) (s : State) (r : Refusal) : exec i s ≠ .refused r := by
  cases i with
  | ret =>
    rcases execRet_cases s with ⟨-, e⟩ | ⟨k, -, ⟨-, e⟩ | ⟨-, e⟩⟩ <;> rw [e] <;> exact fun h => by cases h
  | call nnn =>
    rcases execCall_cases nnn s with ⟨-, e⟩ | ⟨-, t, e, -⟩ <;> rw [e] <;> exact fun h => by cases h
  | sknp x =>
    rcases execSknp_cases x s with ⟨k, -, e⟩ | ⟨-, e⟩ <;> rw [e] <;> exact fun h => by cases h
  | ldKey x =>
    rcases execLdKey_cases x s with ⟨-, e⟩ | ⟨k, -, -, e⟩ <;> rw [e] <;> exact fun h => by cases h
  | drw x y n =>
    rcases execDrw_cases x y n s with ⟨-, e⟩ | ⟨-, -, e⟩ <;> rw [e] <;> exact fun h => by cases h
  | _ => exact fun h => by cases h

/-! ### Host operations -/

/-- The step as a host operation: the state after it and the result (R95, R96, R163). -/
theorem perform_step (s : State) :
    (∃ t, step s = .next t ∧ HostOp.step.perform s = (t, .ok)) ∨
    (∃ f, step s = .fault f ∧ HostOp.step.perform s = (s, .fault f)) := by
  cases h : step s with
  | next t => exact .inl ⟨t, rfl, by simp only [HostOp.perform, h]⟩
  | fault f => exact .inr ⟨f, rfl, by simp only [HostOp.perform, h]⟩
  | refused r =>
    rcases step_cases s with ⟨-, e⟩ | ⟨-, -, e⟩ | ⟨-, i, -, e⟩
    · rw [e] at h; cases h
    · rw [e] at h; cases h
    · exact absurd (e ▸ h) (exec_not_refused i s r)

/-- A load: rejected whole, or the image bytes written and nothing else changed (R162). -/
theorem loadOp_cases (bytes : List Byte) (s : State) (hm : s.mem.wf) :
    (bytes.length > Config.maxImage ∧ loadOp bytes s = .error (.loadTooLarge bytes.length)) ∨
    (bytes.length ≤ Config.maxImage ∧ ∃ m : Memory, loadOp bytes s = .ok { s with mem := m } ∧ m.wf ∧
      ∀ a, m.read a = if Config.origin ≤ a ∧ a < Config.origin + bytes.length then bytes.getD (a - Config.origin) 0x00#8
        else s.mem.read a) := by
  by_cases h : bytes.length > Config.maxImage
  · exact .inl ⟨h, by simp only [loadOp, h, if_true]⟩
  · obtain ⟨m, e, hw, hr⟩ := writeBytes_spec (addr := Config.origin) (bs := bytes) hm
      (by simp only [Config.origin, Config.memSize, Config.maxImage] at h ⊢; omega)
    exact .inr ⟨by omega, m, by simp only [loadOp, h, if_false, e], hw, hr⟩

end Sys2Proof.Machine
end

