-- ==== Sys2Proof/Tests/Slice0.lean ====
section
/-! SUPPORT. Tests of the definitions, each one operation on a small state, with the expected result from the spec's own vectors
(95_test_vectors.md, named in each docstring) or worked out by hand from the rule; and for every obligation with hypotheses a witness
that meets them. -/

namespace Sys2Proof.Tests

open Sys2Proof.Machine

/-! ### Helpers -/

/-- Power-on with one instruction word at 0x0200. -/
def at200 (w : Nat) : State := State.reset.withFetchWord 16 w

/-- The next state of an outcome, if it has one. -/
def nextOf : Host.Outcome State Fault Refusal → Option State
  | .next t => some t
  | .fault _ => none
  | .refused _ => none

/-- The fault of an outcome, if it has one. -/
def faultOf : Host.Outcome State Fault Refusal → Option Fault
  | .next _ => none
  | .fault f => some f
  | .refused _ => none

/-- Some field of the state after one step. -/
def stepped {α : Type} (s : State) (f : State → α) : Option α := (nextOf (step s)).map f

/-- The decoder's answer as an option. -/
def decoded (w : Word) : Option Instr := (decodeWord w).toOption

/-- A byte of memory put in place. -/
def withByte (s : State) (a : Nat) (b : Byte) : State := { s with mem := s.mem.write a b }

/-- A lit pixel put in place. -/
def withPixel (s : State) (c : Column) (r : Row) : State := { s with fb := Framebuffer.setPixel s.fb c r true }

/-- A stack of `n` slots in use, the top one holding `a`. -/
def withStack (s : State) (n : Fin 17) (k : SlotIx) (a : Word) : State :=
  { s with sp := n, stack := s.stack.set k.val a k.isLt }

/-! ### Well-formedness (R71) -/

theorem test_wellFormed_refuses_sixteen_rows : (Instr.drw 0 0 16).wellFormed = false := by decide

theorem test_wellFormed_accepts_fifteen_rows : (Instr.drw 0 0 15).wellFormed = true := by decide

/-! ### Decoding: a word for each constructor, its bits written out from the pattern (R74, R75, R79) -/

theorem test_decode_cls : decoded 0b0000000011100000#16 = some .cls := by decide
theorem test_decode_ret : decoded 0b0000000011101110#16 = some .ret := by decide
theorem test_decode_jp : decoded 0b0001001010101000#16 = some (.jp 0x2A8#12) := by decide
theorem test_decode_call : decoded 0b0010001000001010#16 = some (.call 0x20A#12) := by decide
theorem test_decode_seByte : decoded 0b0011001100101010#16 = some (.seByte 3 0x2A#8) := by decide
theorem test_decode_sneByte : decoded 0b0100101000000000#16 = some (.sneByte 10 0x00#8) := by decide
theorem test_decode_ldByte : decoded 0b0110101010111100#16 = some (.ldByte 10 0xBC#8) := by decide
theorem test_decode_addByte : decoded 0b0111000100000001#16 = some (.addByte 1 0x01#8) := by decide
theorem test_decode_ldReg : decoded 0b1000101110100000#16 = some (.ldReg 11 10) := by decide
theorem test_decode_ldI : decoded 0b1010000100100011#16 = some (.ldI 0x123#12) := by decide
theorem test_decode_drw : decoded 0b1101101010111111#16 = some (.drw 10 11 15) := by decide
theorem test_decode_sknp : decoded 0b1110111110100001#16 = some (.sknp 15) := by decide
theorem test_decode_ldDt : decoded 0b1111001100010101#16 = some (.ldDt 3) := by decide
theorem test_decode_addI : decoded 0b1111110000011110#16 = some (.addI 12) := by decide
theorem test_decode_ldKey : decoded 0b1111000000001010#16 = some (.ldKey 0) := by decide

/-- The unknown words of 95_test_vectors.md section 2.1. -/
theorem test_decode_refuses_unknown_words :
    ([0x0000, 0x00E1, 0x00FE, 0x0123, 0x5120, 0x8121, 0x812E, 0x9120, 0xB123, 0xC1FF, 0xE09E, 0xE0A0, 0xF007, 0xF018, 0xF029,
      0xF033, 0xF055, 0xF065, 0xFFFF] : List Word).all (fun w => decoded w == none) = true := by decide

/-- The word is named in the rejection (R92). -/
theorem test_decode_rejects_by_name : decodeWord 0x5120#16 = .error (.unknownInstruction 0x5120#16) := by rfl

theorem test_decode_rejects_one_byte : decodeBytes [0x12#8] = .error (.truncated 1) := by rfl

/-- R52: the byte at the lower address is the more significant; the vector of 95_test_vectors.md S9. -/
theorem test_decode_is_big_endian : decodeBytes [0x12#8, 0x34#8, 0x56#8] = .ok (.jp 0x234#12, [0x56#8]) := by rfl

/-- The fields of 0xD12F (95_test_vectors.md S9). -/
theorem test_fields_of_D12F :
    (fieldN3 0xD12F#16, fieldX 0xD12F#16, fieldY 0xD12F#16, fieldN 0xD12F#16, fieldNnn 0xD12F#16, fieldKk 0xD12F#16) =
      (0xD#4, 1, 2, 0xF, 0x12F#12, 0x2F#8) := by decide

/-- The words of R79's examples. -/
theorem test_encode_examples :
    [encode (.ldByte 3 0x2A#8), encode (.drw 0 1 5), encode (.jp 0x200#12)] = [0x632A#16, 0xD015#16, 0x1200#16] := by decide

/-- The listings of R79's examples. -/
theorem test_listing_examples :
    [(Instr.ldByte 3 0x2A#8).listing, (Instr.drw 0 1 5).listing, (Instr.jp 0x200#12).listing] =
      ["LD V3, 0x2A", "DRW V0, V1, 5", "JP 0x200"] := by decide

theorem test_decodeTableWord : decodeTableWord 16 0xF30A = some (.ldKey 3) := by decide

/-! ### Memory (R54, R58) -/

/-- Writing the unlisted value removes the entry. -/
theorem test_memory_write_zero_removes : (Memory.write (Memory.write [] 0x300 0x12#8) 0x300 0x00#8) = [] := by decide

theorem test_memory_entries_rise :
    Memory.write (Memory.write [] 0x300 0x12#8) 0x2FF 0x34#8 = [(0x2FF, 0x34#8), (0x300, 0x12#8)] := by decide

/-- R54's `info`: the first address out of range. -/
theorem test_rangeFault_info :
    [rangeFault 0xFFE 2, rangeFault 0xFFF 2, rangeFault 0x1002 2, rangeFault 0x1234 0] =
      [none, some (.boundsViolation 0x1000), some (.boundsViolation 0x1002), none] := by decide

/-! ### The step cycle -/

/-- TF1: the last word of memory runs, and the advance is not range-checked. -/
theorem test_step_at_0xFFE :
    stepped (withByte (withByte { State.reset with pc := 0x0FFE#16 } 0xFFE 0x60#8) 0xFFF 0x07#8) (fun t => (t.reg 0, t.pc)) =
      some (0x07#8, 0x1000#16) := by decide

/-- TF3 and TX1: at 0xFFF the second byte is missing, whatever the first holds. -/
theorem test_fetch_fault_at_0xFFF :
    faultOf (step (withByte { State.reset with pc := 0x0FFF#16 } 0xFFF 0x50#8)) = some (.boundsViolation 0x1000) := by decide

/-- TF4. -/
theorem test_fetch_fault_at_0x1002 :
    faultOf (step { State.reset with pc := 0x1002#16 }) = some (.boundsViolation 0x1002) := by decide

/-- TF6: an odd `PC` is fetched like any other. -/
theorem test_step_at_odd_pc :
    stepped (withByte (withByte { State.reset with pc := 0x0203#16 } 0x203 0x6A#8) 0x204 0x55#8) (fun t => (t.reg 10, t.pc)) =
      some (0x55#8, 0x0205#16) := by decide

/-- TX2: no OR instruction exists. -/
theorem test_unknown_word_faults : faultOf (step (at200 0x8121)) = some (.unknownInstruction 0x8121#16) := by decide

/-- `withFetchWord` changes memory only, at `PC`. -/
theorem test_withFetchWord_places_big_endian : (at200 0xD01F).mem = [(0x200, 0xD0#8), (0x201, 0x1F#8)] := by decide

/-! ### Control transfer -/

/-- TC7. -/
theorem test_ret_returns :
    stepped (withStack (at200 0x00EE) 1 0 0x0204#16) (fun t => (t.sp, t.pc, t.slot 0)) = some (0, 0x0206#16, 0x0204#16) := by decide

/-- TX7: underflow is tested before the bounds condition. -/
theorem test_ret_underflow_first :
    faultOf (step (withStack (at200 0x00EE) 0 0 0xFFFE#16)) = some .stackUnderflow := by decide

/-- TC3: an odd target is legal. -/
theorem test_jp_odd_target : stepped (at200 0x1203) (fun t => t.pc) = some 0x0203#16 := by decide

/-- TC4. -/
theorem test_call_pushes : stepped (at200 0x220A) (fun t => (t.slot 0, t.sp, t.pc)) = some (0x0200#16, 1, 0x020A#16) := by decide

/-- TC6. -/
theorem test_call_overflow : faultOf (step (withStack (at200 0x2400) 16 15 0x0300#16)) = some .stackOverflow := by decide

/-- S2. -/
theorem test_se_skips : stepped ((at200 0x332A).setReg 3 0x2A#8) (fun t => t.pc) = some 0x0204#16 := by decide
theorem test_se_does_not_skip : stepped ((at200 0x332A).setReg 3 0x2B#8) (fun t => t.pc) = some 0x0202#16 := by decide

/-- TC14 and TC15: an unsigned comparison for equality. -/
theorem test_sne_does_not_skip : stepped ((at200 0x4C80).setReg 12 0x80#8) (fun t => t.pc) = some 0x0202#16 := by decide
theorem test_sne_skips : stepped ((at200 0x4C7F).setReg 12 0x80#8) (fun t => t.pc) = some 0x0204#16 := by decide

/-! ### Register, index and timer operations -/

/-- TA1 and TA2. -/
theorem test_ldByte : stepped (at200 0x632A) (fun t => (t.reg 3, t.pc)) = some (0x2A#8, 0x0202#16) := by decide
theorem test_ldByte_vf : stepped ((at200 0x6F00).setReg 15 0x01#8) (fun t => t.reg 15) = some 0x00#8 := by decide

/-- TA6 (200 + 100 = 256 + 44) and TA8 (the sum, not a flag). -/
theorem test_addByte_wraps :
    stepped (((at200 0x7164).setReg 1 0xC8#8).setReg 15 0x55#8) (fun t => (t.reg 1, t.reg 15)) = some (0x2C#8, 0x55#8) := by decide
theorem test_addByte_vf : stepped ((at200 0x7F03).setReg 15 0xFE#8) (fun t => t.reg 15) = some 0x01#8 := by decide

/-- TA9: the source is `y`, the destination `x`. -/
theorem test_ldReg :
    stepped (((at200 0x8BA0).setReg 10 0x11#8).setReg 11 0x22#8) (fun t => (t.reg 11, t.reg 10)) = some (0x11#8, 0x11#8) := by decide

/-- TA13. -/
theorem test_ldI : stepped (at200 0xAFFF) (fun t => (t.i, t.pc)) = some (0x0FFF#16, 0x0202#16) := by decide

/-- TA14. -/
theorem test_ldDt :
    stepped ({ (at200 0xF315) with dt := 0xF0#8 }.setReg 3 0x07#8) (fun t => (t.dt, t.pc)) = some (0x07#8, 0x0202#16) := by decide

/-- TA18 (not masked to 12 bits) and TA19 (modulo 65536). -/
theorem test_addI_leaves_memory :
    stepped ({ (at200 0xF01E) with i := 0x0FFF#16 }.setReg 0 0xFF#8) (fun t => t.i) = some 0x10FE#16 := by decide
theorem test_addI_wraps :
    stepped ({ (at200 0xF21E) with i := 0xFFFF#16 }.setReg 2 0x02#8) (fun t => t.i) = some 0x0001#16 := by decide

/-! ### Display -/

/-- TD1: the display is cleared and `VF` is not touched. -/
theorem test_cls :
    stepped ((withPixel (withPixel (at200 0x00E0) 63 31) 10 5).setReg 15 0x01#8)
      (fun t => (t.pixel 63 31, t.pixel 10 5, t.reg 15)) = some (false, false, 0x01#8) := by decide

/-- TD22: the old `VF` is the column, bit 7 leftmost; then `VF` is the flag. -/
theorem test_drw_position_from_vf :
    stepped (withByte { ((at200 0xDF11).setReg 15 0x05#8).setReg 1 0x02#8 with i := 0x020A#16 } 0x20A 0xA5#8)
      (fun t => ((List.range 16).map fun c => t.pixel (Fin.ofNat 64 c) 2, t.reg 15)) =
      some ([false, false, false, false, false, true, false, true, false, false, true, false, true, false, false, false],
        0x00#8) := by decide

/-- TD14: a collision from the second row alone sets the flag and turns the pixel off. -/
theorem test_drw_collision_in_second_row :
    stepped (withByte (withPixel { (at200 0xD012).setReg 1 0x02#8 with i := 0x0300#16 } 3 3) 0x301 0x10#8)
      (fun t => (t.pixel 3 3, t.reg 15)) = some (false, 0x01#8) := by decide

/-- P3: row 0 wraps from column 63 to column 0, row 1 from row 31 to row 0. -/
theorem test_drw_wraps_both_edges :
    stepped (withByte (withByte { ((at200 0xD012).setReg 0 0x3E#8).setReg 1 0x1F#8 with i := 0x020E#16 } 0x20E 0xF0#8) 0x20F 0x81#8)
      (fun t => [t.pixel 62 31, t.pixel 63 31, t.pixel 0 31, t.pixel 1 31, t.pixel 2 31, t.pixel 62 0, t.pixel 5 0, t.pixel 63 0]) =
      some [true, true, true, true, false, true, true, false] := by decide

/-- TD18: a sprite that runs past memory draws none of its rows. -/
theorem test_drw_fault : faultOf (step { (at200 0xD012) with i := 0x0FFF#16 }) = some (.boundsViolation 0x1000) := by decide

/-! ### Keypad -/

/-- TK2 and TK6. -/
theorem test_sknp_skips : stepped (setKeyOp 8 true ((at200 0xE3A1).setReg 3 0x07#8)) (fun t => t.pc) = some 0x0204#16 := by decide
theorem test_sknp_fault :
    faultOf (step (setKeyOp 7 true ((at200 0xE3A1).setReg 3 0x17#8))) = some (.boundsViolation 0x17) := by decide

/-- TK10 and TK7. -/
theorem test_ldKey_lowest :
    stepped (setKeyOp 9 true (setKeyOp 7 true (at200 0xF30A))) (fun t => (t.reg 3, t.pc)) = some (0x07#8, 0x0202#16) := by decide
theorem test_ldKey_stalls :
    stepped ((at200 0xF30A).setReg 3 0x42#8) (fun t => (t.reg 3, t.pc)) = some (0x42#8, 0x0200#16) := by decide

/-! ### Host operations -/

/-- TH5: bytes beyond the image keep their contents; `PC` is not touched. -/
theorem test_load :
    ((HostOp.load [0xAA#8, 0xBB#8]).perform { (withByte (at200 0x1122) 0x202 0x33#8) with pc := 0x0300#16 }).1.mem =
      [(0x200, 0xAA#8), (0x201, 0xBB#8), (0x202, 0x33#8)] := by decide

/-- TH6 and TH8. -/
theorem test_tick : (tickOp { State.reset with dt := 0x02#8 }).dt = 0x01#8 := by decide
theorem test_tick_stops : (tickOp State.reset).dt = 0x00#8 := by decide

/-- TH11 and TH13. -/
theorem test_setKey : (setKeyOp 10 true State.reset).key 10 = true := by decide
theorem test_setKey_release : (setKeyOp 10 false (setKeyOp 10 true State.reset)).key 10 = false := by decide

/-- R29: pixel `(c, r)` stands at `r × 64 + c` of the frame. -/
theorem test_frame_is_row_major : (frame (withPixel State.reset 5 2))[2 * 64 + 5] = true := by
  simp only [frame, Vector.getElem_flatten]; decide

/-- R181's codes and values. -/
theorem test_fault_codes :
    ([.boundsViolation 0x10FE, .stackOverflow, .stackUnderflow, .unknownInstruction 0x5000#16, .loadTooLarge 3585] : List Fault).map
      (fun f => (f.code, f.info)) = [(1, 0x10FE), (2, 16), (3, 0), (4, 0x5000), (5, 3585)] := by decide

/-- TR2, the keys and the timer cleared and the memory kept. -/
theorem test_reset_keeps_memory :
    ((resetOp (setKeyOp 4 true { (at200 0x1200) with dt := 0x33#8 })).mem,
      (resetOp (setKeyOp 4 true { (at200 0x1200) with dt := 0x33#8 })).key 4,
      (resetOp (setKeyOp 4 true { (at200 0x1200) with dt := 0x33#8 })).dt) =
      ([(0x200, 0x12#8)], false, 0x00#8) := by decide

/-- P4's first operations: the stall answers `Ok` (code 0), and the run goes on once a key is down. -/
theorem test_responses_of_key_wait :
    (responses [.step, .setKey 7 true, .step] (at200 0xF30A)).map Response.code = [some 0, none, some 0] := by decide

/-! ### Witnesses: for each obligation with hypotheses, states and operands that meet all of them, at the edges of each clause -/

/-- A state with `PC` and `SP` put where a clause needs them. -/
def withPcSp (s : State) (pc : Word) (sp : Fin 17) : State := { s with pc := pc, sp := sp }

/-- A state with the index register put where a clause needs it. -/
def withI (s : State) (i : Word) : State := { s with i := i }

/-- The last word of memory, at `PC = 0xFFE`. -/
def atEnd (hi lo : Byte) : State :=
  withByte (withByte { State.reset with pc := 0x0FFE#16 } 0xFFE hi) 0xFFF lo

theorem wit_inv_atEnd : Inv (atEnd 0x30#8 0x00#8) :=
  ⟨by decide, fun a ha => read_of_below fun c hc => Nat.lt_of_lt_of_le ha ((by decide : ∀ c ∈ (atEnd 0x30#8 0x00#8).mem,
    Config.origin ≤ c.1) c hc), by decide, by decide⟩

/-- StepKeepsInvariant, at the edge that `PC` reaches: a skip at 0xFFE. -/
theorem wit_StepKeepsInvariant :
    Inv (atEnd 0x30#8 0x00#8) ∧ ∃ t, step (atEnd 0x30#8 0x00#8) = .next t ∧ t.pc = 0x1002#16 :=
  ⟨wit_inv_atEnd, _, rfl, by decide⟩

theorem wit_EveryHostRunKeepsInvariant :
    Inv (atEnd 0x30#8 0x00#8) ∧ (performAll [.step, .reset, .load [0x12#8]] (atEnd 0x30#8 0x00#8)).mem.length = 2 :=
  ⟨wit_inv_atEnd, by decide⟩

theorem wit_RetFaultsOnlyByUnderflowWhenReachable :
    Inv (atEnd 0x30#8 0x00#8) ∧ exec .ret (atEnd 0x30#8 0x00#8) = .fault .stackUnderflow := ⟨wit_inv_atEnd, rfl⟩

theorem wit_StepRunsTheDecodedInstruction :
    (atEnd 0xDF#8 0xFF#8).pc.toNat ≤ 0xFFE ∧
      decodeBytes [(atEnd 0xDF#8 0xFF#8).mem.read (atEnd 0xDF#8 0xFF#8).pc.toNat,
        (atEnd 0xDF#8 0xFF#8).mem.read ((atEnd 0xDF#8 0xFF#8).pc.toNat + 1)] = .ok (.drw 15 15 15, []) ∧
      (Instr.drw 15 15 15).wellFormed = true := ⟨by decide, rfl, by decide⟩

/-- Both clauses, at the edge between them. -/
theorem wit_FetchReadsTwoBytesOrFaults :
    (atEnd 0x60#8 0x07#8).pc.toNat ≤ 0xFFE ∧ (withPcSp State.reset 0x0FFF#16 0).pc.toNat > 0xFFE := by decide

theorem wit_UnknownWordFaultsAndChangesNothing :
    State.reset.pc.toNat ≤ 0xFFE ∧ ∀ row ∈ opcodeTable, row.selects (wordAtPc State.reset) = false := by decide

/-- StepFaultsExactlyByTheTable: the last address that fits and the first that does not, for the sprite read. -/
theorem wit_faults_of_drw :
    [faultOf (step (withI (at200 0xD01F) 0x0FF1#16)), faultOf (step (withI (at200 0xD01F) 0x0FF2#16)),
      faultOf (step (withI (at200 0xD011) 0x0FFF#16)), faultOf (step (withI (at200 0xD011) 0x1000#16)),
      faultOf (step (withI (at200 0xD010) 0xFFFF#16))] =
      [none, some (.boundsViolation 0x1000), none, some (.boundsViolation 0x1000), none] := by decide

/-- StepFaultsExactlyByTheTable: the key index, the popped address, `SP` and the fetch, each at its edge. -/
theorem wit_faults_at_the_edges :
    [faultOf (step ((at200 0xE3A1).setReg 3 0x0F#8)), faultOf (step ((at200 0xE3A1).setReg 3 0x10#8)),
      faultOf (step (withStack (at200 0x00EE) 16 15 0xFFFD#16)), faultOf (step (withStack (at200 0x00EE) 16 15 0xFFFE#16)),
      faultOf (step (withStack (at200 0x2FFF) 15 0 0x0000#16)), faultOf (step (withStack (at200 0x2FFF) 16 0 0x0000#16)),
      faultOf (step (withPcSp State.reset 0x1000#16 0))] =
      [none, some (.boundsViolation 0x10), none, some (.boundsViolation 0xFFFE), none, some .stackOverflow,
        some (.boundsViolation 0x1000)] := by decide

/-- StepSetsPcByTheTable: a completed step of a decoded word, and a faulting step. -/
theorem wit_StepSetsPcByTheTable :
    (∃ t, step (at200 0x1203) = .next t) ∧ decodeWord (wordAtPc (at200 0x1203)) = .ok (.jp 0x203#12) ∧
      step State.reset = .fault (.unknownInstruction 0x0000#16) := ⟨⟨_, rfl⟩, rfl, rfl⟩

theorem wit_FaultLeavesTheWholeState :
    (HostOp.step.perform State.reset).2 = .fault (.unknownInstruction 0x0000#16) := rfl

theorem wit_StepWritesNoMemoryAndNoKey : ∃ t, step (at200 0xF015) = .next t ∧ t.mem = [(0x200, 0xF0#8), (0x201, 0x15#8)] :=
  ⟨_, rfl, by decide⟩

/-- `JP` meets the premises of every clause. -/
theorem wit_EachItemHasOnlyItsWriters :
    (∃ t, exec (.jp 0x300#12) State.reset = .next t) ∧ Instr.jp 0x300#12 ≠ .cls ∧ Instr.jp 0x300#12 ≠ .ret ∧
      (∀ nnn, Instr.jp 0x300#12 ≠ .call nnn) ∧ (∀ x, Instr.jp 0x300#12 ≠ .ldDt x) ∧ (∀ nnn, Instr.jp 0x300#12 ≠ .ldI nnn) ∧
      (∀ x, Instr.jp 0x300#12 ≠ .addI x) ∧ (∀ x kk, Instr.jp 0x300#12 ≠ .ldByte x kk) ∧
      (∀ x kk, Instr.jp 0x300#12 ≠ .addByte x kk) ∧ (∀ x y, Instr.jp 0x300#12 ≠ .ldReg x y) ∧
      (∀ x, Instr.jp 0x300#12 ≠ .ldKey x) ∧ ∀ x y n, Instr.jp 0x300#12 ≠ .drw x y n :=
  ⟨⟨_, rfl⟩, by simp⟩

/-- Both clauses: TF9's `JP` to itself, and the key stall. -/
theorem wit_StepFixedPointsAreJumpToSelfAndKeyStall :
    Finished (at200 0x1200) ∧ step (at200 0x1200) = .next (at200 0x1200) ∧
      (at200 0xF30A).pc.toNat ≤ 0xFFE ∧ decodeWord (wordAtPc (at200 0xF30A)) = .ok (.ldKey 3) ∧
      (∀ k, (at200 0xF30A).key k = false) ∧ step (at200 0xF30A) = .next (at200 0xF30A) :=
  ⟨⟨by decide, 0x200#12, rfl, by decide⟩, rfl, by decide, rfl, by decide, rfl⟩

theorem wit_FaultPersistsUntilResetOrLoad :
    (∀ op ∈ [HostOp.tickTimer, .setKey 3 true, .step], op ≠ .powerOn ∧ op ≠ .reset ∧ ∀ bytes, op ≠ .load bytes) ∧
      step State.reset = .fault (.unknownInstruction 0x0000#16) := ⟨by simp, rfl⟩

theorem wit_DelayTimerInfluencesNothingElse :
    AgreeButTimer State.reset { State.reset with dt := 0xFF#8 } ∧ State.reset ≠ { State.reset with dt := 0xFF#8 } :=
  ⟨rfl, by decide⟩

/-- TC12: the highest address that can be advanced, popped from the top slot. -/
theorem wit_RetReturnsPastTheCall :
    (15 : SlotIx).val + 1 = (withStack State.reset 16 15 0xFFFD#16).sp.val ∧
      ((withStack State.reset 16 15 0xFFFD#16).slot 15).toNat ≤ 0xFFFD := by decide

/-- TC11 and the empty stack. -/
theorem wit_RetFaultsOnEmptyStackOrTopTooHigh :
    State.reset.sp.val = 0 ∧ (0 : SlotIx).val + 1 = (withStack State.reset 1 0 0xFFFE#16).sp.val ∧
      ((withStack State.reset 1 0 0xFFFE#16).slot 0).toNat ≥ 0xFFFE := by decide

theorem wit_RetOnEmptyStackUnderflowsAndChangesNothing :
    (at200 0x00EE).pc.toNat ≤ 0xFFE ∧ wordAtPc (at200 0x00EE) = 0x00EE#16 ∧ (at200 0x00EE).sp.val = 0 := by decide

/-- The premise of the clause on `JP` to itself. -/
theorem wit_JpSetsPcAndNothingElse : (0xFFF#12 : Addr).toNat = (withPcSp State.reset 0x0FFF#16 0).pc.toNat := by decide

/-- Both clauses: one free slot, and none. -/
theorem wit_CallPushesItsOwnAddress :
    (withPcSp State.reset 0x0200#16 15).sp.val < 16 ∧ (withPcSp State.reset 0x0200#16 16).sp.val = 16 := by decide

theorem wit_CallOnFullStackOverflowsAndChangesNothing :
    (withStack (at200 0x2400) 16 0 0x0000#16).pc.toNat ≤ 0xFFE ∧
      (wordAtPc (withStack (at200 0x2400) 16 0 0x0000#16)).toNat = 0x2000 + (0x400#12 : Addr).toNat ∧
      (withStack (at200 0x2400) 16 0 0x0000#16).sp.val = 16 := by decide

/-- At the last slot and the last fetchable address. -/
theorem wit_CallThenRetReturnsAfterTheCall :
    (withPcSp State.reset 0x0FFE#16 15).pc.toNat ≤ 0xFFE ∧
      ∃ t, exec (.call 0x300#12) (withPcSp State.reset 0x0FFE#16 15) = .next t ∧ t.sp = 16 ∧ t.slot 15 = 0x0FFE#16 :=
  ⟨by decide, _, rfl, by decide, by decide⟩

/-- Both clauses: sixteen targets and seventeen. -/
theorem wit_CallsNestExactlySixteenDeep :
    State.reset.sp.val + (List.replicate 16 0x300#12).length ≤ 16 ∧ State.reset.sp.val + (List.replicate 17 0x300#12).length > 16 := by
  decide

/-- The edge of the data range, and a sprite without rows. -/
theorem wit_DrwInvertsExactlyTheSpritePixels :
    SpriteInMemory (withI State.reset 0x0FF1#16) 15 ∧ SpriteInMemory (withI State.reset 0xFFFF#16) 0 :=
  ⟨.inr (by decide), .inl rfl⟩

/-- Drawn pixels with and without a collision: the sprite 0x80 at (0, 0). -/
theorem wit_sprite_covers :
    SpriteCovers (withByte (withI State.reset 0x0300#16) 0x300 0x80#8) 0 0 1 0 0 ∧
      ¬ SpriteCovers (withByte (withI State.reset 0x0300#16) 0x300 0x80#8) 0 0 1 1 0 ∧
      (withByte (withI State.reset 0x0300#16) 0x300 0x80#8).pixel 0 0 = false ∧
      (withPixel (withByte (withI State.reset 0x0300#16) 0x300 0x80#8) 0 0).pixel 0 0 = true := by
  refine ⟨⟨0, by decide, 0, by decide, by decide⟩, ?_, by decide, by decide⟩
  rintro ⟨k, hk, j, hj, hc, -, hb⟩
  have hk0 : k = 0 := by omega
  have hv : (withByte (withI State.reset 0x0300#16) 0x300 0x80#8).reg 0 = 0x00#8 := by decide
  have hj1 : j = 1 := by
    rw [hv] at hc
    change 1 = (0 + j) % 64 at hc
    omega
  subst hk0 hj1
  exact absurd hb (by decide)

theorem wit_DrwFaultsWhenDataLeaveMemory :
    0 < 15 ∧ (withI State.reset 0x0FF2#16).i.toNat + 15 - 1 > 0xFFF ∧ 0 < 1 ∧ (withI State.reset 0x1000#16).i.toNat + 1 - 1 > 0xFFF := by
  decide

theorem wit_DrawingTwiceRestoresTheDisplay :
    (0 : RegIx) ≠ 15 ∧ (14 : RegIx) ≠ 15 ∧ ∃ t, exec (.drw 0 14 15) (withI State.reset 0x0FF1#16) = .next t := ⟨by decide, by decide, _, rfl⟩

/-- The largest key index, up and down. -/
theorem wit_SknpSkipsWhenTheKeyIsUp :
    (15 : KeyIx).val = ((State.reset.setReg 3 0x0F#8).reg 3).toNat ∧ (State.reset.setReg 3 0x0F#8).key 15 = false ∧
      (setKeyOp 15 true (State.reset.setReg 3 0x0F#8)).key 15 = true := by decide

theorem wit_SknpFaultsAboveFifteen : ((State.reset.setReg 3 0x10#8).reg 3).toNat > 0x0F := by decide

/-- The highest key alone. -/
theorem wit_LdKeyLoadsTheLowestPressedKey :
    (setKeyOp 15 true State.reset).key 15 = true ∧ ∀ j : KeyIx, j < 15 → (setKeyOp 15 true State.reset).key j = false := by decide

theorem wit_LdKeyStallsWithoutAKey : ∀ k : KeyIx, State.reset.key k = false := by decide

theorem wit_DecodeOfEncodeIsTheInstruction : (Instr.drw 15 15 15).wellFormed = true ∧ (Instr.drw 0 0 0).wellFormed = true := by decide

theorem wit_EncodeOfDecodeIsTheWord : decodeWord 0xDFFF#16 = .ok (.drw 15 15 15) := rfl

/-- The longest image, and an address on either side of it. -/
theorem wit_LoadWritesTheImageAndNothingElse :
    State.reset.mem.wf ∧ (List.replicate 3584 0xFF#8 : List Byte).length ≤ 3584 ∧ 0x1FF < 0x200 ∧
      0x200 + (List.replicate 3584 0xFF#8 : List Byte).length ≤ 0x1000 :=
  ⟨wf_nil, by simp only [List.length_replicate]; decide, by decide, by simp only [List.length_replicate]; decide⟩

theorem wit_LoadTooLargeWritesNothing : (List.replicate 3585 0xFF#8 : List Byte).length > 3584 := by
  simp only [List.length_replicate]; decide

theorem wit_FirstFetchIsAtTheOrigin :
    (HostOp.powerOn = .powerOn ∨ HostOp.powerOn = .reset) ∧ (HostOp.reset = .powerOn ∨ HostOp.reset = .reset) := by decide

theorem wit_LoadedInstructionRunsFirst :
    (Instr.jp 0x200#12).wellFormed = true ∧ State.reset.mem.wf ∧
      ∃ t, (HostOp.load (encodeBytes (.jp 0x200#12) ++ [0x33#8])).perform (HostOp.reset.perform State.reset).1 = (t, .ok) :=
  ⟨rfl, wf_nil, _, rfl⟩

/-- SetKeyWritesOneKey: another key. -/
theorem wit_SetKeyWritesOneKey : (15 : KeyIx) ≠ 0 := by decide

end Sys2Proof.Tests
end

/-! # Proofs of the family 10_state: the state after power-on, and what writes each item of state -/

namespace Sys2Proof.Machine

/-! ### After power-on -/

/-- Settles O1, item by item of R34, by the laws of `State.reset`. -/
theorem powerOnStateIsZeroButPc : Obligations.PowerOnStateIsZeroButPc :=
  ⟨read_nil, reg_reset, rfl, rfl, slot_reset, rfl, rfl, pixel_reset, key_reset⟩

/-- Settles O2: memory is the empty list, every slot is 0x0000 and `PC` is 0x0200. -/
theorem powerOnStateSatisfiesInvariant : Obligations.PowerOnStateSatisfiesInvariant where
  memory := wf_nil
  reserved a _ := read_nil a
  slots k := by simp
  counter := by decide

/-! ### The frame of execute -/

/-- The items that the instruction may write: the writers of R22 to R29, read by instruction. -/
def writtenItems : Instr → List Item
  | .cls => [.fb, .pc]
  | .ret => [.sp, .pc]
  | .jp _ => [.pc]
  | .call _ => [.stack, .sp, .pc]
  | .seByte _ _ => [.pc]
  | .sneByte _ _ => [.pc]
  | .ldByte _ _ => [.v, .pc]
  | .addByte _ _ => [.v, .pc]
  | .ldReg _ _ => [.v, .pc]
  | .ldI _ => [.i, .pc]
  | .drw _ _ _ => [.v, .fb, .pc]
  | .sknp _ => [.pc]
  | .ldDt _ => [.dt, .pc]
  | .addI _ => [.i, .pc]
  | .ldKey _ => [.v, .pc]

/-- An item reads as before when the field that holds it is as before. -/
theorem keepsAllBut_of_fields {written : List Item} {s t : State}
    (h : (.mem ∉ written → t.mem = s.mem) ∧ (.v ∉ written → t.v = s.v) ∧ (.i ∉ written → t.i = s.i) ∧
      (.pc ∉ written → t.pc = s.pc) ∧ (.stack ∉ written → t.stack = s.stack) ∧ (.sp ∉ written → t.sp = s.sp) ∧
      (.dt ∉ written → t.dt = s.dt) ∧ (.fb ∉ written → t.fb = s.fb) ∧ (.keys ∉ written → t.keys = s.keys)) :
    KeepsAllBut written s t := by
  obtain ⟨hmem, hv, hi, hpc, hstack, hsp, hdt, hfb, hkeys⟩ := h
  intro it hit
  cases it with
  | mem => exact fun a => by rw [hmem hit]
  | v => exact fun x => by simp only [State.reg, hv hit]
  | i => exact hi hit
  | pc => exact hpc hit
  | stack => exact fun k => by simp only [State.slot, hstack hit]
  | sp => exact hsp hit
  | dt => exact hdt hit
  | fb => exact fun c r => by simp only [State.pixel, hfb hit]
  | keys => exact fun k => by simp only [State.key, hkeys hit]

/-- An instruction that completes leaves alone every item it is not listed as a writer of. -/
theorem exec_keepsAllBut_writtenItems {i : Instr} {s t : State} (h : exec i s = .next t) :
    KeepsAllBut (writtenItems i) s t := by
  cases i with
  | ret =>
    rcases execRet_cases s with ⟨-, e⟩ | ⟨k, -, ⟨-, e⟩ | ⟨-, e⟩⟩ <;> cases e.symm.trans h
    exact keepsAllBut_of_fields (by simp [writtenItems])
  | call nnn =>
    rcases execCall_cases nnn s with ⟨-, e⟩ | ⟨-, u, e, -, -, hmem, hv, hi, -, hdt, hfb, hkeys⟩ <;> cases e.symm.trans h
    exact keepsAllBut_of_fields (by simp [writtenItems, hmem, hv, hi, hdt, hfb, hkeys])
  | drw x y n =>
    rcases execDrw_cases x y n s with ⟨-, e⟩ | ⟨-, -, e⟩ <;> cases e.symm.trans h
    exact keepsAllBut_of_fields (by simp [writtenItems])
  | sknp x =>
    rcases execSknp_cases x s with ⟨k, -, e⟩ | ⟨-, e⟩ <;> cases e.symm.trans h
    exact keepsAllBut_of_fields (by simp [writtenItems])
  | ldKey x =>
    rcases execLdKey_cases x s with ⟨-, e⟩ | ⟨k, -, -, e⟩ <;> cases e.symm.trans h <;>
      exact keepsAllBut_of_fields (by simp [writtenItems])
  | _ =>
    cases h
    exact keepsAllBut_of_fields (by simp [writtenItems])

/-! ### The writers of each item -/

theorem fb_mem_writtenItems {i : Instr} : .fb ∈ writtenItems i ↔ i = .cls ∨ ∃ x y n, i = .drw x y n := by
  cases i <;> simp [writtenItems]

theorem stack_mem_writtenItems {i : Instr} : .stack ∈ writtenItems i ↔ ∃ nnn, i = .call nnn := by
  cases i <;> simp [writtenItems]

theorem sp_mem_writtenItems {i : Instr} : .sp ∈ writtenItems i ↔ i = .ret ∨ ∃ nnn, i = .call nnn := by
  cases i <;> simp [writtenItems]

theorem dt_mem_writtenItems {i : Instr} : .dt ∈ writtenItems i ↔ ∃ x, i = .ldDt x := by
  cases i <;> simp [writtenItems]

theorem i_mem_writtenItems {i : Instr} : .i ∈ writtenItems i ↔ (∃ nnn, i = .ldI nnn) ∨ ∃ x, i = .addI x := by
  cases i <;> simp [writtenItems]

theorem v_mem_writtenItems {i : Instr} :
    .v ∈ writtenItems i ↔ (∃ x kk, i = .ldByte x kk) ∨ (∃ x kk, i = .addByte x kk) ∨ (∃ x y, i = .ldReg x y) ∨
      (∃ x, i = .ldKey x) ∨ ∃ x y n, i = .drw x y n := by
  cases i <;> simp [writtenItems]

/-- Settles O14: an item is left alone by every instruction that is none of its writers. -/
theorem eachItemHasOnlyItsWriters : Obligations.EachItemHasOnlyItsWriters := by
  intro i s t h
  have frame := exec_keepsAllBut_writtenItems h
  refine ⟨fun hcls hdrw => frame .fb ?_, fun hcall => frame .stack ?_, fun hret hcall => frame .sp ?_,
    fun hdt => frame .dt ?_, fun hldI haddI => frame .i ?_, fun hbyte hadd hreg hkey hdrw => frame .v ?_⟩
  · simp [fb_mem_writtenItems, hcls, hdrw]
  · simp [stack_mem_writtenItems, hcall]
  · simp [sp_mem_writtenItems, hret, hcall]
  · simp [dt_mem_writtenItems, hdt]
  · simp [i_mem_writtenItems, hldI, haddI]
  · simp [v_mem_writtenItems, hbyte, hadd, hreg, hkey, hdrw]

end Sys2Proof.Machine

/-! # Proofs of the family 20_memory: no step writes memory, and the invariant through every run of the host -/

namespace Sys2Proof.Machine

/-! ### Memory and keys under a step -/

/-- No instruction stores to memory or to the keypad: the data themselves stay, not only what they read as (R31, R56). -/
theorem exec_mem_keys {i : Instr} {s t : State} (h : exec i s = .next t) : t.mem = s.mem ∧ t.keys = s.keys := by
  cases i with
  | ret =>
    rcases execRet_cases s with ⟨-, e⟩ | ⟨k, -, ⟨-, e⟩ | ⟨-, e⟩⟩ <;> cases e.symm.trans h
    exact ⟨rfl, rfl⟩
  | call nnn =>
    rcases execCall_cases nnn s with ⟨-, e⟩ | ⟨-, u, e, -, -, hmem, -, -, -, -, -, hkeys⟩ <;> cases e.symm.trans h
    exact ⟨hmem, hkeys⟩
  | drw x y n =>
    rcases execDrw_cases x y n s with ⟨-, e⟩ | ⟨-, -, e⟩ <;> cases e.symm.trans h
    exact ⟨rfl, rfl⟩
  | sknp x =>
    rcases execSknp_cases x s with ⟨k, -, e⟩ | ⟨-, e⟩ <;> cases e.symm.trans h
    exact ⟨rfl, rfl⟩
  | ldKey x =>
    rcases execLdKey_cases x s with ⟨-, e⟩ | ⟨k, -, -, e⟩ <;> cases e.symm.trans h <;> exact ⟨rfl, rfl⟩
  | _ =>
    cases h
    exact ⟨rfl, rfl⟩

/-- Settles O13: a completed step is the execution of one instruction, and none of them stores. -/
theorem stepWritesNoMemoryAndNoKey : Obligations.StepWritesNoMemoryAndNoKey := by
  intro s t h
  obtain ⟨-, i, -, he⟩ := step_next h
  exact exec_mem_keys he

/-! ### The stack slots and `PC` under a step -/

/-- A slot keeps its value or takes the address of the instruction, which `CALL` pushes (R26, R112). -/
theorem exec_slot_cases {i : Instr} {s t : State} (h : exec i s = .next t) (k : SlotIx) :
    t.slot k = s.slot k ∨ t.slot k = s.pc := by
  by_cases hi : ∃ nnn, i = .call nnn
  · obtain ⟨nnn, rfl⟩ := hi
    rcases execCall_cases nnn s with ⟨-, e⟩ | ⟨-, u, e, -, hslot, -⟩ <;> cases e.symm.trans h
    rw [slot_jumpTo, hslot k]
    exact (ite_eq_or_eq ..).symm
  · exact .inl (exec_keepsAllBut_writtenItems h .stack (mt stack_mem_writtenItems.mp hi) k)

/-- `PC` stays, goes on by one instruction or two, becomes an address operand, or goes one instruction past a slot (R94). -/
theorem exec_pc_cases {i : Instr} {s t : State} (h : exec i s = .next t) :
    t.pc = s.pc ∨ t.pc = s.pc + 2#16 ∨ t.pc = s.pc + 4#16 ∨ (∃ nnn : Addr, t.pc = zext16 nnn) ∨
      ∃ k : SlotIx, t.pc = s.slot k + 2#16 := by
  have skip (c : Bool) : (skipIf c s).pc = s.pc + 2#16 ∨ (skipIf c s).pc = s.pc + 4#16 := (ite_eq_or_eq ..).symm
  cases i with
  | ret =>
    rcases execRet_cases s with ⟨-, e⟩ | ⟨k, -, ⟨-, e⟩ | ⟨-, e⟩⟩ <;> cases e.symm.trans h
    exact .inr (.inr (.inr (.inr ⟨k, rfl⟩)))
  | jp nnn =>
    cases h
    exact .inr (.inr (.inr (.inl ⟨nnn, rfl⟩)))
  | call nnn =>
    rcases execCall_cases nnn s with ⟨-, e⟩ | ⟨-, u, e, -⟩ <;> cases e.symm.trans h
    exact .inr (.inr (.inr (.inl ⟨nnn, rfl⟩)))
  | seByte x kk | sneByte x kk =>
    cases h
    exact .inr ((skip _).imp_right .inl)
  | drw x y n =>
    rcases execDrw_cases x y n s with ⟨-, e⟩ | ⟨-, -, e⟩ <;> cases e.symm.trans h
    exact .inr (.inl rfl)
  | sknp x =>
    rcases execSknp_cases x s with ⟨k, -, e⟩ | ⟨-, e⟩ <;> cases e.symm.trans h
    exact .inr ((skip _).imp_right .inl)
  | ldKey x =>
    rcases execLdKey_cases x s with ⟨-, e⟩ | ⟨k, -, -, e⟩ <;> cases e.symm.trans h
    · exact .inl rfl
    · exact .inr (.inl rfl)
  | _ =>
    cases h
    exact .inr (.inl rfl)

/-- From a fetchable `PC` and fetchable slots, `PC` ends at most one skip past the last fetchable address (R99). -/
theorem exec_pc_le {i : Instr} {s t : State} (hpc : s.pc.toNat ≤ 0xFFE) (hslots : ∀ k : SlotIx, (s.slot k).toNat ≤ 0xFFE)
    (h : exec i s = .next t) : t.pc.toNat ≤ 0x1002 := by
  rcases exec_pc_cases h with e | e | e | ⟨nnn, e⟩ | ⟨k, e⟩ <;> rw [e]
  · omega
  · bv_omega
  · bv_omega
  · rw [zext16_toNat]
    omega
  · have hk := hslots k
    bv_omega

/-! ### The invariant under each operation of the host -/

/-- A completed step keeps the invariant: memory is the same, a slot that changes takes the fetched `PC` (R56, R58, R99). -/
theorem step_keeps_inv {s t : State} (hs : Inv s) (h : step s = .next t) : Inv t := by
  obtain ⟨hpc, i, -, he⟩ := step_next h
  obtain ⟨hmem, -⟩ := exec_mem_keys he
  exact
    { memory := hmem ▸ hs.memory
      reserved := hmem ▸ hs.reserved
      slots := fun k => by
        rcases exec_slot_cases he k with e | e <;> rw [e]
        · exact hs.slots k
        · exact hpc
      counter := exec_pc_le hpc hs.slots he }

/-- A reset keeps memory, and puts the stack and `PC` where power-on does (R211). -/
theorem resetOp_keeps_inv {s : State} (hs : Inv s) : Inv (resetOp s) where
  memory := hs.memory
  reserved := hs.reserved
  slots := powerOnStateSatisfiesInvariant.slots
  counter := powerOnStateSatisfiesInvariant.counter

/-- A load that succeeds writes from 0x200 upward only (R58, R162). -/
theorem loadOp_keeps_inv {bytes : List Byte} {s t : State} (hs : Inv s) (h : loadOp bytes s = .ok t) : Inv t := by
  rcases loadOp_cases bytes s hs.memory with ⟨-, e⟩ | ⟨-, m, e, hwf, hread⟩ <;> cases e.symm.trans h
  exact
    { memory := hwf
      reserved := fun a ha => by
        rw [hread, if_neg (by omega)]
        exact hs.reserved a ha
      slots := hs.slots
      counter := hs.counter }

/-- Every operation of the host keeps the invariant, one that returns a fault included (R95, R160). -/
theorem perform_keeps_inv (op : HostOp) {s : State} (hs : Inv s) : Inv (op.perform s).1 := by
  cases op with
  | powerOn => exact powerOnStateSatisfiesInvariant
  | reset => exact resetOp_keeps_inv hs
  | load bytes =>
    cases h : loadOp bytes s with
    | ok t =>
      simp only [HostOp.perform, h]
      exact loadOp_keeps_inv hs h
    | error f =>
      simp only [HostOp.perform, h]
      exact hs
  | step =>
    rcases perform_step s with ⟨t, h, e⟩ | ⟨f, -, e⟩ <;> rw [e]
    · exact step_keeps_inv hs h
    · exact hs
  | tickTimer => exact ⟨hs.memory, hs.reserved, hs.slots, hs.counter⟩
  | setKey k pressed => exact ⟨hs.memory, hs.reserved, hs.slots, hs.counter⟩
  | getPixel c r => exact hs
  | dump => exact hs

/-- Settles O4, by induction on the operations: each keeps the invariant, whatever came before it. -/
theorem everyHostRunKeepsInvariant : Obligations.EveryHostRunKeepsInvariant := by
  intro ops
  induction ops with
  | nil => exact fun s hs => hs
  | cons op ops ih => exact fun s hs => ih (op.perform s).1 (perform_keeps_inv op hs)

end Sys2Proof.Machine

/-! # Proofs of the family 30_encoding: decoder, encoder and opcode table agree -/

namespace Sys2Proof

/-! ### A word is the sum of its fields, in each format of R71 -/

theorem toNat_eq_fieldN3_fieldNnn (w : Word) : w.toNat = (fieldN3 w).toNat * 4096 + (fieldNnn w).toNat := by
  rw [fieldN3_toNat, fieldNnn_toNat]; omega

theorem toNat_eq_fieldN3_fieldX_fieldKk (w : Word) :
    w.toNat = (fieldN3 w).toNat * 4096 + (fieldX w).val * 256 + (fieldKk w).toNat := by
  rw [fieldN3_toNat, fieldX_val, fieldKk_toNat]; omega

theorem toNat_eq_fieldN3_fieldX_fieldY_fieldN (w : Word) :
    w.toNat = (fieldN3 w).toNat * 4096 + (fieldX w).val * 256 + (fieldY w).val * 16 + fieldN w := by
  rw [fieldN3_toNat, fieldX_val, fieldY_val, fieldN_eq]; omega

/-! ### The fields of a sum, in each format of R71 -/

variable {w : Word}

theorem fields_of_nnn (k : Nat) {nnn : Addr} (h : w.toNat = k * 4096 + nnn.toNat) :
    (fieldN3 w).toNat = k ∧ fieldNnn w = nnn := by
  rw [fieldN3_toNat, ← BitVec.toNat_inj, fieldNnn_toNat]; omega

theorem fields_of_x_kk (k : Nat) {x : RegIx} {kk : Byte} (h : w.toNat = k * 4096 + x.val * 256 + kk.toNat) :
    (fieldN3 w).toNat = k ∧ fieldX w = x ∧ fieldKk w = kk := by
  rw [fieldN3_toNat, Fin.ext_iff, fieldX_val, ← BitVec.toNat_inj, fieldKk_toNat]; omega

/-- For the words 0xE and 0xF, whose last byte is the selector (R76). -/
theorem fields_of_x_selector (k : Nat) (sel : Byte) {x : RegIx} (h : w.toNat = k * 4096 + sel.toNat + x.val * 256) :
    (fieldN3 w).toNat = k ∧ fieldX w = x ∧ fieldKk w = sel :=
  fields_of_x_kk k (by omega)

theorem fields_of_x_y_n (k : Nat) {x y : RegIx} {n : Nat} (hn : n ≤ 15)
    (h : w.toNat = k * 4096 + x.val * 256 + y.val * 16 + n) :
    (fieldN3 w).toNat = k ∧ fieldX w = x ∧ fieldY w = y ∧ fieldN w = n := by
  rw [fieldN3_toNat, Fin.ext_iff, fieldX_val, Fin.ext_iff, fieldY_val, fieldN_eq]; omega

/-! ### The decoder reads back every encoding -/

/-- The word of R79's sum decodes to the instruction, because its fields are the summands. -/
theorem decodeWord_of_toNat_eq_encodeNat {i : Instr} (hi : i.wellFormed = true) (h : w.toNat = encodeNat i) :
    decodeWord w = .ok i := by
  cases i with
  | cls => obtain rfl : w = 0x00E0#16 := BitVec.eq_of_toNat_eq h; rfl
  | ret => obtain rfl : w = 0x00EE#16 := BitVec.eq_of_toNat_eq h; rfl
  | jp nnn => obtain ⟨hk, rfl⟩ := fields_of_nnn 0x1 h; simp only [decodeWord, hk]
  | call nnn => obtain ⟨hk, rfl⟩ := fields_of_nnn 0x2 h; simp only [decodeWord, hk]
  | seByte x kk => obtain ⟨hk, rfl, rfl⟩ := fields_of_x_kk 0x3 h; simp only [decodeWord, hk]
  | sneByte x kk => obtain ⟨hk, rfl, rfl⟩ := fields_of_x_kk 0x4 h; simp only [decodeWord, hk]
  | ldByte x kk => obtain ⟨hk, rfl, rfl⟩ := fields_of_x_kk 0x6 h; simp only [decodeWord, hk]
  | addByte x kk => obtain ⟨hk, rfl, rfl⟩ := fields_of_x_kk 0x7 h; simp only [decodeWord, hk]
  | ldReg x y => obtain ⟨hk, rfl, rfl, hn⟩ := fields_of_x_y_n 0x8 (Nat.zero_le 15) h; simp only [decodeWord, hk, hn, if_true]
  | ldI nnn => obtain ⟨hk, rfl⟩ := fields_of_nnn 0xA h; simp only [decodeWord, hk]
  | drw x y n =>
    obtain ⟨hk, rfl, rfl, rfl⟩ := fields_of_x_y_n 0xD (of_decide_eq_true hi) h
    simp only [decodeWord, hk]
  | sknp x => obtain ⟨hk, rfl, hsel⟩ := fields_of_x_selector 0xE 0xA1#8 h; simp [decodeWord, hk, hsel]
  | ldDt x => obtain ⟨hk, rfl, hsel⟩ := fields_of_x_selector 0xF 0x15#8 h; simp [decodeWord, hk, hsel]
  | addI x => obtain ⟨hk, rfl, hsel⟩ := fields_of_x_selector 0xF 0x1E#8 h; simp [decodeWord, hk, hsel]
  | ldKey x => obtain ⟨hk, rfl, hsel⟩ := fields_of_x_selector 0xF 0x0A#8 h; simp [decodeWord, hk, hsel]

theorem decodeWord_encode {i : Instr} (hi : i.wellFormed = true) : decodeWord (encode i) = .ok i :=
  decodeWord_of_toNat_eq_encodeNat hi (encode_toNat hi)

/-- The decoder on the bytes of a word is the decoder on the word. -/
theorem decodeBytes_bytesOfWord {i : Instr} (h : decodeWord w = .ok i) (rest : List Byte) :
    decodeBytes (bytesOfWord w ++ rest) = .ok (i, rest) := by
  have hw := wordOfBytes_bytesOfWord w
  simp only [bytesOfWord] at hw
  simp only [bytesOfWord, List.cons_append, List.nil_append, decodeBytes_pair, hw, h]

/-- Settles O42: the bytes of `i` are those of its word, and that word decodes to `i`. -/
theorem decodeOfEncodeIsTheInstruction : Obligations.DecodeOfEncodeIsTheInstruction :=
  fun _ rest hi => decodeBytes_bytesOfWord (decodeWord_encode hi) rest

/-! ### The words that select no row -/

/-- R77's list by first nibble is the complement of R75's rows. -/
theorem no_row_selects_iff (w : Word) : (∀ r ∈ opcodeTable, r.selects w = false) ↔
    ((w.toNat / 4096 = 0x0 ∧ w.toNat ≠ 0x00E0 ∧ w.toNat ≠ 0x00EE) ∨ w.toNat / 4096 = 0x5 ∨
      (w.toNat / 4096 = 0x8 ∧ w.toNat % 16 ≠ 0x0) ∨ w.toNat / 4096 = 0x9 ∨ w.toNat / 4096 = 0xB ∨ w.toNat / 4096 = 0xC ∨
      (w.toNat / 4096 = 0xE ∧ w.toNat % 256 ≠ 0xA1) ∨
      (w.toNat / 4096 = 0xF ∧ w.toNat % 256 ≠ 0x0A ∧ w.toNat % 256 ≠ 0x15 ∧ w.toNat % 256 ≠ 0x1E)) := by
  have and_FFFF : w &&& 0xFFFF#16 = w := BitVec.and_allOnes
  simp only [opcodeTable, List.forall_mem_cons, Bool.eq_false_iff, ne_eq, selects_iff, rowOf, and_FFFF, and_F000, and_F00F,
    and_F0FF, BitVec.toNat_ofNat, List.not_mem_nil, false_imp_iff, implies_true, and_true]
  omega

/-! ### What the decoder answers -/

/-- The decoder accepts a word with an instruction whose number is the word's, or rejects it when it selects no row. -/
theorem decodeWord_cases (w : Word) :
    (∃ i, decodeWord w = .ok i ∧ encodeNat i = w.toNat) ∨
    (decodeWord w = .error (.unknownInstruction w) ∧ ∀ r ∈ opcodeTable, r.selects w = false) := by
  have hn3 := fieldN3_toNat w
  have hnnn := toNat_eq_fieldN3_fieldNnn w
  have hxkk := toNat_eq_fieldN3_fieldX_fieldKk w
  have hxyn := toNat_eq_fieldN3_fieldX_fieldY_fieldN w
  have hn := fieldN_eq w
  have hkk := fieldKk_toNat w
  rw [no_row_selects_iff]
  simp only [decodeWord, ← BitVec.toNat_inj, BitVec.toNat_ofNat]
  split
  case h_1 => -- 0x0: the whole word selects
    split_ifs
    · exact .inl ⟨_, rfl, by simp only [encodeNat]; omega⟩
    · exact .inl ⟨_, rfl, by simp only [encodeNat]; omega⟩
    · exact .inr ⟨rfl, by omega⟩
  case h_8 => -- 0x8: the last nibble selects
    split_ifs
    · exact .inl ⟨_, rfl, by simp only [encodeNat]; omega⟩
    · exact .inr ⟨rfl, by omega⟩
  case h_11 => -- 0xE: the last byte selects
    split_ifs
    · exact .inl ⟨_, rfl, by simp only [encodeNat]; omega⟩
    · exact .inr ⟨rfl, by omega⟩
  case h_12 => -- 0xF: the last byte selects
    split_ifs
    · exact .inl ⟨_, rfl, by simp only [encodeNat]; omega⟩
    · exact .inl ⟨_, rfl, by simp only [encodeNat]; omega⟩
    · exact .inl ⟨_, rfl, by simp only [encodeNat]; omega⟩
    · exact .inr ⟨rfl, by omega⟩
  case h_13 => -- 0x5, 0x9, 0xB, 0xC
    refine .inr ⟨rfl, ?_⟩
    simp only [imp_false] at *
    omega
  all_goals -- the first nibble alone selects
    exact .inl ⟨_, rfl, by simp only [encodeNat]; omega⟩

theorem decodeWord_ok {i : Instr} (h : decodeWord w = .ok i) : encode i = w := by
  rcases decodeWord_cases w with ⟨j, hj, hw⟩ | ⟨he, -⟩
  · cases hj.symm.trans h
    rw [encode, hw, BitVec.ofNat_toNat, BitVec.setWidth_eq]
  · cases he.symm.trans h

/-- Settles O43: the decoder's fields are the summands of R79's sum. -/
theorem encodeOfDecodeIsTheWord : Obligations.EncodeOfDecodeIsTheWord :=
  fun _ _ h => ⟨decodeWord_wellFormed h, decodeWord_ok h⟩

/-! ### Decoder and opcode table -/

/-- The encoder's word selects the instruction's own row, for every instruction. -/
theorem encode_selects_rowOf (i : Instr) : Laws.RowSelected.Statement i :=
  match i with
  | .cls => Laws.RowSelected.cls
  | .ret => Laws.RowSelected.ret
  | .jp nnn => Laws.RowSelected.jp nnn
  | .call nnn => Laws.RowSelected.call nnn
  | .seByte x kk => Laws.RowSelected.seByte x kk
  | .sneByte x kk => Laws.RowSelected.sneByte x kk
  | .ldByte x kk => Laws.RowSelected.ldByte x kk
  | .addByte x kk => Laws.RowSelected.addByte x kk
  | .ldReg x y => Laws.RowSelected.ldReg x y
  | .ldI nnn => Laws.RowSelected.ldI nnn
  | .drw x y n => Laws.RowSelected.drw x y n
  | .sknp x => Laws.RowSelected.sknp x
  | .ldDt x => Laws.RowSelected.ldDt x
  | .addI x => Laws.RowSelected.addI x
  | .ldKey x => Laws.RowSelected.ldKey x

/-- What the decoder accepts selects the row of the instruction decoded. -/
theorem decodeWord_ok_selects {i : Instr} (h : decodeWord w = .ok i) : rowOf i ∈ opcodeTable ∧ (rowOf i).selects w = true := by
  obtain ⟨hsel, hmem⟩ := encode_selects_rowOf i (decodeWord_wellFormed h)
  exact ⟨hmem, decodeWord_ok h ▸ hsel⟩

/-- A word is rejected exactly when it selects no row (R77). -/
theorem decodeWord_error_iff (w : Word) :
    decodeWord w = .error (.unknownInstruction w) ↔ ∀ r ∈ opcodeTable, r.selects w = false := by
  rcases decodeWord_cases w with ⟨i, hi, -⟩ | ⟨he, hno⟩
  · obtain ⟨hmem, hsel⟩ := decodeWord_ok_selects hi
    simp only [hi, reduceCtorEq, false_iff]
    exact fun hno => Bool.false_ne_true ((hno _ hmem).symm.trans hsel)
  · exact iff_of_true he hno

/-- Settles O45: the decoder rejects the words that select no row, and these are R77's list. -/
theorem unknownWordsAreExactlyTheListed : Obligations.UnknownWordsAreExactlyTheListed :=
  fun w => (decodeWord_error_iff w).trans (no_row_selects_iff w)

/-- Rows that differ on a bit both fix are disjoint. -/
theorem not_selects_both {r r' : OpcodeRow} (h : r.fixed &&& r'.mask ≠ r'.fixed &&& r.mask) (w : Word) :
    ¬ (r.selects w = true ∧ r'.selects w = true) := by
  rintro ⟨hr, hr'⟩
  rw [OpcodeRow.selects, beq_iff_eq] at hr hr'
  exact h (by rw [← hr, ← hr', BitVec.and_assoc, BitVec.and_comm r.mask, BitVec.and_assoc])

theorem opcodeTable_disjoint :
    opcodeTable.Pairwise fun r r' => ∀ w : Word, ¬ (r.selects w = true ∧ r'.selects w = true) :=
  List.Pairwise.imp not_selects_both
    (show opcodeTable.Pairwise fun r r' => r.fixed &&& r'.mask ≠ r'.fixed &&& r.mask by decide)

/-- A word selects at most one row of the table. -/
theorem selected_row_unique {r r' : OpcodeRow} (hr : r ∈ opcodeTable) (hr' : r' ∈ opcodeTable)
    (h : r.selects w = true) (h' : r'.selects w = true) : r = r' := by
  by_contra hne
  have : Std.Symm fun r r' : OpcodeRow => ∀ w : Word, ¬ (r.selects w = true ∧ r'.selects w = true) :=
    ⟨fun _ _ hrr' w hw => hrr' w hw.symm⟩
  exact opcodeTable_disjoint.forall hr hr' hne w ⟨h, h'⟩

/-- The decoder reads an instruction of the row that the word selects, and of no other. -/
theorem decodeWord_rowOf_iff (w : Word) (r : OpcodeRow) :
    (∃ i, decodeWord w = .ok i ∧ rowOf i = r) ↔ r ∈ opcodeTable ∧ r.selects w = true := by
  constructor
  · rintro ⟨i, hi, rfl⟩
    exact decodeWord_ok_selects hi
  · rintro ⟨hr, hsel⟩
    rcases decodeWord_cases w with ⟨i, hi, -⟩ | ⟨-, hno⟩
    · obtain ⟨hmem, hsel'⟩ := decodeWord_ok_selects hi
      exact ⟨i, hi, selected_row_unique hmem hr hsel' hsel⟩
    · exact absurd ((hno r hr).symm.trans hsel) Bool.false_ne_true

/-- Settles O44: the rows' own numbers are evaluated, and the decoder agrees with the table on every word. -/
theorem decoderAcceptsExactlyTheOpcodeTable : Obligations.DecoderAcceptsExactlyTheOpcodeTable :=
  ⟨rfl, opcodeTable_disjoint, by decide, by decide, decodeWord_rowOf_iff⟩

/-- Settles O46: eight fixed words, evaluated. -/
theorem sampleWordsDecodeRight : Obligations.SampleWordsDecodeRight :=
  ⟨rfl, rfl, rfl, rfl, rfl, rfl, rfl, rfl⟩

end Sys2Proof

/-! # Proofs of the family 40_step_cycle: what a step fetches and runs, where `PC` goes, and that it completes or faults -/

namespace Sys2Proof.Machine

/-! ### The invariant -/

/-- Settles O3: nothing is stored to memory, a slot that changes takes the fetched `PC`, and `PC` goes at most one skip further. -/
theorem stepKeepsInvariant : Obligations.StepKeepsInvariant := fun _ _ => step_keeps_inv

/-- Settles O5: a slot of at most 0xFFE can be advanced, so only the empty stack is left to fault. -/
theorem retFaultsOnlyByUnderflowWhenReachable : Obligations.RetFaultsOnlyByUnderflowWhenReachable := by
  intro s f hs h
  rcases execRet_cases s with ⟨-, e⟩ | ⟨k, -, ⟨hk, -⟩ | ⟨-, e⟩⟩
  · cases e.symm.trans h
    rfl
  · have := hs.slots k
    omega
  · cases e.symm.trans h

/-! ### Fetch, decode, execute -/

/-- A step on a fetchable word that decodes is the execution of that instruction, and nothing more (R90 to R93). -/
theorem step_eq_exec {s : State} {i : Instr} (hpc : s.pc.toNat ≤ 0xFFE) (hi : decodeWord (wordAtPc s) = .ok i) :
    step s = exec i s := by
  rcases step_cases s with ⟨h, -⟩ | ⟨-, ⟨d, hd⟩, -⟩ | ⟨-, j, hj, e⟩
  · omega
  · cases hd.symm.trans hi
  · cases hj.symm.trans hi
    exact e

/-- The decoder on the two bytes at `PC` is the decoder on the word there (R52). -/
theorem decodeWord_wordAtPc {s : State} {i : Instr}
    (h : decodeBytes [s.mem.read s.pc.toNat, s.mem.read (s.pc.toNat + 1)] = .ok (i, [])) :
    decodeWord (wordAtPc s) = .ok i := by
  rw [decodeBytes_pair, wordOfBytes_pair, ← wordAtPc] at h
  cases hd : decodeWord (wordAtPc s) <;> rw [hd] at h <;> cases h
  rfl

/-- Settles O6: the bytes at `PC` are those of the fetched word. -/
theorem stepRunsTheDecodedInstruction : Obligations.StepRunsTheDecodedInstruction :=
  fun _ _ hpc hi _ => step_eq_exec hpc (decodeWord_wordAtPc hi)

/-- Settles O7, by the fetch on each side of 0xFFE; a step passes the fault of its fetch on. -/
theorem fetchReadsTwoBytesOrFaults : Obligations.FetchReadsTwoBytesOrFaults := by
  intro s
  rcases fetch_cases s with ⟨hpc, e⟩ | ⟨hpc, e⟩
  · exact ⟨fun _ => e, fun h => by omega⟩
  · exact ⟨fun h => by omega, fun _ => ⟨_, e, by simp only [step, e, raise]⟩⟩

/-! ### A step completes or faults -/

/-- A step goes on or faults: nothing is refused (R96, R97). -/
theorem step_next_or_fault (s : State) : (∃ t, step s = .next t) ∨ ∃ f, step s = .fault f :=
  (perform_step s).imp (fun ⟨t, h, _⟩ => ⟨t, h⟩) (fun ⟨f, h, _⟩ => ⟨f, h⟩)

/-- Settles O12: of the three outcomes the first two exclude each other and the third does not occur. -/
theorem stepCompletesOrFaults : Obligations.StepCompletesOrFaults := by
  intro s
  rcases step_next_or_fault s with ⟨t, e⟩ | ⟨f, e⟩ <;> simp [SafeStep, e]

/-- Settles O11: only `load` and `step` return a fault, and each hands back the state it was given (R95, R188). -/
theorem faultLeavesTheWholeState : Obligations.FaultLeavesTheWholeState := by
  intro op s f h
  cases op with
  | load bytes =>
    cases e : loadOp bytes s with
    | ok t =>
      simp only [HostOp.perform, e] at h
      cases h
    | error f' => simp only [HostOp.perform, e]
  | step =>
    rcases perform_step s with ⟨t, -, e⟩ | ⟨f', -, e⟩
    · rw [e] at h
      cases h
    · rw [e]
  | _ => cases h

/-! ### Where `PC` goes -/

/-- From a fetchable `PC` the advance does not wrap (R94). -/
theorem advance_pc_toNat {s : State} (hpc : s.pc.toNat ≤ 0xFFE) : (advance s).pc.toNat = s.pc.toNat + 2 := by
  rw [advance_pc]
  bv_omega

/-- From a fetchable `PC` neither way of a skip wraps (R94). -/
theorem skipIf_pc_toNat {s : State} (hpc : s.pc.toNat ≤ 0xFFE) (c : Bool) :
    (skipIf c s).pc.toNat = if c then s.pc.toNat + 4 else s.pc.toNat + 2 := by
  rw [skipIf_pc]
  split <;> bv_omega

/-- An instruction that completes at a fetchable `PC` leaves `PC` where R94's table says. -/
theorem exec_pcOutcome {i : Instr} {s t : State} (hpc : s.pc.toNat ≤ 0xFFE) (h : exec i s = .next t) : PcOutcome i s t := by
  cases i with
  | ret =>
    rcases execRet_cases s with ⟨-, e⟩ | ⟨k, hk, ⟨-, e⟩ | ⟨hle, e⟩⟩ <;> cases e.symm.trans h
    intro j hj
    obtain rfl : j = k := Fin.ext (by omega)
    rw [jumpTo_pc]
    bv_omega
  | jp nnn =>
    cases h
    exact zext16_toNat nnn
  | call nnn =>
    rcases execCall_cases nnn s with ⟨-, e⟩ | ⟨-, u, e, -⟩ <;> cases e.symm.trans h
    exact zext16_toNat nnn
  | seByte x kk | sneByte x kk =>
    cases h
    exact (skipIf_pc_toNat hpc _).trans (by simp)
  | drw x y n =>
    rcases execDrw_cases x y n s with ⟨-, e⟩ | ⟨-, -, e⟩ <;> cases e.symm.trans h
    exact advance_pc_toNat hpc
  | sknp x =>
    rcases execSknp_cases x s with ⟨k, hk, e⟩ | ⟨-, e⟩ <;> cases e.symm.trans h
    intro j hj
    obtain rfl : j = k := Fin.ext (hj.trans hk.symm)
    exact (skipIf_pc_toNat hpc _).trans (by simp)
  | ldKey x =>
    rcases execLdKey_cases x s with ⟨hup, e⟩ | ⟨k, hk, -, e⟩ <;> cases e.symm.trans h
    · simp [PcOutcome, hup]
    · rw [PcOutcome, if_pos ⟨k, hk⟩]
      exact advance_pc_toNat hpc
  | _ =>
    cases h
    exact advance_pc_toNat hpc

/-- Settles O10: a completed step is the execution at a fetchable `PC` of the instruction that the word decodes to. -/
theorem stepSetsPcByTheTable : Obligations.StepSetsPcByTheTable := by
  intro s i
  refine ⟨fun t h hi => ?_, fun f h => ?_⟩
  · obtain ⟨hpc, j, hj, he⟩ := step_next h
    cases hj.symm.trans hi
    exact exec_pcOutcome hpc he
  · rw [faultLeavesTheWholeState .step s f (by simp only [HostOp.perform, h])]

/-! ### The steps that change nothing -/

/-- A `RET` that completes takes `SP` one down (R110). -/
theorem exec_ret_sp {s t : State} (h : exec .ret s = .next t) : t.sp.val + 1 = s.sp.val := by
  rcases execRet_cases s with ⟨-, e⟩ | ⟨k, hk, ⟨-, e⟩ | ⟨-, e⟩⟩ <;> cases e.symm.trans h
  simp only [jumpTo_sp, popSlot_sp]
  omega

/-- A `CALL` that completes takes `SP` one up (R112). -/
theorem exec_call_sp {nnn : Addr} {s t : State} (h : exec (.call nnn) s = .next t) : t.sp.val = s.sp.val + 1 := by
  rcases execCall_cases nnn s with ⟨-, e⟩ | ⟨-, u, e, hsp, -⟩ <;> cases e.symm.trans h
  exact hsp

/-- A `JP` to its own address changes nothing (R98). -/
theorem exec_jp_self {s : State} {nnn : Addr} (h : nnn.toNat = s.pc.toNat) : exec (.jp nnn) s = .next s := by
  have hpc : zext16 nnn = s.pc := BitVec.eq_of_toNat_eq ((zext16_toNat nnn).trans h)
  rw [exec, execJp, hpc, jumpTo]

/-- At a fetchable `PC` an instruction leaves the whole state as it was exactly when it is a `JP` to its own address or an `LD Vx,K` with
no key pressed: every other one moves `PC`, or `SP` in `CALL` and `RET` (R98). -/
theorem exec_fixed_iff {i : Instr} {s : State} (hpc : s.pc.toNat ≤ 0xFFE) :
    exec i s = .next s ↔
      (∃ nnn : Addr, i = .jp nnn ∧ nnn.toNat = s.pc.toNat) ∨ ((∃ x, i = .ldKey x) ∧ ∀ k : KeyIx, s.key k = false) := by
  constructor
  · intro h
    have pcOutcome := exec_pcOutcome hpc h
    cases i with
    | ret =>
      have := exec_ret_sp h
      omega
    | jp nnn => exact .inl ⟨nnn, rfl, pcOutcome.symm⟩
    | call nnn =>
      have := exec_call_sp h
      omega
    | seByte x kk | sneByte x kk =>
      simp only [PcOutcome] at pcOutcome
      split at pcOutcome <;> omega
    | sknp x =>
      rcases execSknp_cases x s with ⟨k, hk, -⟩ | ⟨-, e⟩
      · have := pcOutcome k hk
        split at this <;> omega
      · rw [e] at h
        cases h
    | ldKey x =>
      rcases execLdKey_cases x s with ⟨hup, -⟩ | ⟨k, hk, -⟩
      · exact .inr ⟨⟨x, rfl⟩, hup⟩
      · rw [PcOutcome, if_pos ⟨k, hk⟩] at pcOutcome
        omega
    | _ =>
      simp only [PcOutcome] at pcOutcome
      omega
  · rintro (⟨nnn, rfl, h⟩ | ⟨⟨x, rfl⟩, hup⟩)
    · exact exec_jp_self h
    · rcases execLdKey_cases x s with ⟨-, e⟩ | ⟨k, hk, -⟩
      · exact e
      · cases (hup k).symm.trans hk

/-- Settles O15: a completed step is one execution at a fetchable `PC`, whose fixed points are known. -/
theorem stepFixedPointsAreJumpToSelfAndKeyStall : Obligations.StepFixedPointsAreJumpToSelfAndKeyStall := by
  intro s
  constructor
  · intro h
    obtain ⟨hpc, i, hi, he⟩ := step_next h
    rcases (exec_fixed_iff hpc).mp he with ⟨nnn, rfl, hnnn⟩ | ⟨⟨x, rfl⟩, hup⟩
    · exact .inl ⟨hpc, nnn, hi, hnnn⟩
    · exact .inr ⟨hpc, ⟨x, hi⟩, hup⟩
  · rintro (⟨hpc, nnn, hi, hnnn⟩ | ⟨hpc, ⟨x, hi⟩, hup⟩)
    · exact (step_eq_exec hpc hi).trans ((exec_fixed_iff hpc).mpr (.inl ⟨nnn, rfl, hnnn⟩))
    · exact (step_eq_exec hpc hi).trans ((exec_fixed_iff hpc).mpr (.inr ⟨⟨x, rfl⟩, hup⟩))

end Sys2Proof.Machine

/-! # Proofs of the family 41_control_transfer: `RET`, `JP`, `CALL`, `SE`, `SNE`, and how calls nest and return -/

namespace Sys2Proof.Machine

/-! ### `RET` (R110) -/

/-- On a stack that is not empty, with a top that can be advanced, `RET` pops and jumps one instruction past the top. -/
theorem exec_ret_next {s : State} {k : SlotIx} (hk : k.val + 1 = s.sp.val) (hle : (s.slot k).toNat ≤ 0xFFFD) :
    exec .ret s = .next (jumpTo (s.slot k + 2#16) (popSlot s)) := by
  rcases execRet_cases s with ⟨h, -⟩ | ⟨j, hj, h⟩
  · omega
  · obtain rfl : j = k := Fin.ext (by omega)
    rcases h with ⟨hgt, -⟩ | ⟨-, e⟩
    · omega
    · exact e

/-- Settles O18: the return that the case of an advanceable top answers; only `SP` and `PC` are `RET`'s to write. -/
theorem retReturnsPastTheCall : Obligations.RetReturnsPastTheCall := by
  intro s k hk hle
  have e := exec_ret_next hk hle
  refine ⟨_, e, ?_, ?_, exec_keepsAllBut_writtenItems e⟩
  · simp only [jumpTo_sp, popSlot_sp]
    omega
  · rw [jumpTo_pc]
    bv_omega

/-- Settles O19: the empty stack and the top too high are the two faulting cases of `RET`. -/
theorem retFaultsOnEmptyStackOrTopTooHigh : Obligations.RetFaultsOnEmptyStackOrTopTooHigh := by
  intro s
  rcases execRet_cases s with ⟨h0, e⟩ | ⟨j, hj, h⟩
  · exact ⟨fun _ => e, fun k hk _ => by omega⟩
  · refine ⟨fun h0 => by omega, fun k hk hge => ?_⟩
    obtain rfl : j = k := Fin.ext (by omega)
    rcases h with ⟨-, e⟩ | ⟨hle, -⟩
    · exact e
    · omega

/-! ### `JP` (R111) -/

/-- Settles O21: the jump writes `PC` alone, and writes the same value there when it is to its own address. -/
theorem jpSetsPcAndNothingElse : Obligations.JpSetsPcAndNothingElse := by
  intro nnn s
  have e : exec (.jp nnn) s = .next (jumpTo (zext16 nnn) s) := rfl
  refine ⟨_, e, zext16_toNat nnn, exec_keepsAllBut_writtenItems e, fun hself => ?_⟩
  exact Host.Outcome.next.inj (e.symm.trans (exec_jp_self hself))

/-! ### `CALL` (R112) -/

/-- With all sixteen slots in use `CALL` overflows. -/
theorem exec_call_full (nnn : Addr) {s : State} (h : s.sp.val = 16) : exec (.call nnn) s = .fault .stackOverflow := by
  rcases execCall_cases nnn s with ⟨-, e⟩ | ⟨hlt, -⟩
  · exact e
  · omega

/-- With a slot free `CALL` completes. -/
theorem exec_call_next (nnn : Addr) {s : State} (h : s.sp.val < 16) : ∃ t : State, exec (.call nnn) s = .next t := by
  rcases execCall_cases nnn s with ⟨hfull, -⟩ | ⟨-, u, e, -⟩
  · omega
  · exact ⟨_, e⟩

/-- A `CALL` that completes leaves its own address in slot `SP`, and every other slot as it was. -/
theorem exec_call_slot {nnn : Addr} {s t : State} (h : exec (.call nnn) s = .next t) (k : SlotIx) :
    t.slot k = if k.val = s.sp.val then s.pc else s.slot k := by
  rcases execCall_cases nnn s with ⟨-, e⟩ | ⟨-, u, e, -, hslot, -⟩ <;> cases e.symm.trans h
  exact hslot k

/-- A `CALL` that completes leaves `PC` at its target. -/
theorem exec_call_pc {nnn : Addr} {s t : State} (h : exec (.call nnn) s = .next t) : t.pc.toNat = nnn.toNat := by
  rcases execCall_cases nnn s with ⟨-, e⟩ | ⟨-, u, e, -⟩ <;> cases e.symm.trans h
  exact zext16_toNat nnn

/-- Settles O22: item by item what a completed `CALL` leaves, and the overflow on a full stack. -/
theorem callPushesItsOwnAddress : Obligations.CallPushesItsOwnAddress := by
  intro nnn s
  refine ⟨fun hlt => ?_, exec_call_full nnn⟩
  obtain ⟨t, e⟩ := exec_call_next nnn hlt
  exact ⟨t, e, exec_call_slot e, exec_call_sp e, exec_call_pc e, exec_keepsAllBut_writtenItems e⟩

/-! ### Calls that nest and return -/

/-- Settles O24: the slot that the `CALL` wrote is the top of the stack it left, and its fetchable address can be advanced. -/
theorem callThenRetReturnsAfterTheCall : Obligations.CallThenRetReturnsAfterTheCall := by
  intro nnn s t u hpc hcall hsp hslots
  have htsp := exec_call_sp hcall
  obtain ⟨k, hk⟩ : ∃ k : SlotIx, k.val = s.sp.val := ⟨⟨s.sp.val, by omega⟩, rfl⟩
  have htop : u.slot k = s.pc := by rw [hslots k (by omega), exec_call_slot hcall, if_pos hk]
  obtain ⟨v, e, hvsp, hvpc, -⟩ := retReturnsPastTheCall u k (by rw [hsp, htsp, hk]) (by rw [htop]; omega)
  exact ⟨v, e, by rw [hvpc, htop], Fin.ext (hvsp.trans hk)⟩

/-- A chain whose first `CALL` completes goes on from the state it left. -/
theorem callChain_cons_next {target : Addr} {s t : State} (h : exec (.call target) s = .next t) (rest : List Addr) :
    callChain (target :: rest) s = callChain rest t := by
  rw [callChain, h]

/-- A chain whose first `CALL` overflows overflows. -/
theorem callChain_cons_full (target : Addr) {s : State} (h : s.sp.val = 16) (rest : List Addr) :
    callChain (target :: rest) s = .fault .stackOverflow := by
  rw [callChain, exec_call_full target h]

/-- A chain of no more `CALL`s than there are free slots completes, and leaves the slots in use before as they were. -/
theorem callChain_next {targets : List Addr} {s : State} (h : s.sp.val + targets.length ≤ 16) :
    ∃ t : State, callChain targets s = .next t ∧ t.sp.val = s.sp.val + targets.length ∧
      ∀ k : SlotIx, k.val < s.sp.val → t.slot k = s.slot k := by
  induction targets generalizing s with
  | nil => exact ⟨s, rfl, rfl, fun _ _ => rfl⟩
  | cons target rest ih =>
    rw [List.length_cons] at h ⊢
    obtain ⟨u, e⟩ := exec_call_next target (s := s) (by omega)
    have husp := exec_call_sp e
    obtain ⟨t, hrest, hsp, hslots⟩ := ih (s := u) (by omega)
    refine ⟨t, (callChain_cons_next e rest).trans hrest, by omega, fun k hk => ?_⟩
    rw [hslots k (by omega), exec_call_slot e, if_neg (by omega)]

/-- A chain of more `CALL`s than there are free slots overflows. -/
theorem callChain_overflow {targets : List Addr} {s : State} (h : s.sp.val + targets.length > 16) :
    callChain targets s = .fault .stackOverflow := by
  induction targets generalizing s with
  | nil =>
    rw [List.length_nil] at h
    omega
  | cons target rest ih =>
    rw [List.length_cons] at h
    by_cases hfull : s.sp.val = 16
    · exact callChain_cons_full target hfull rest
    · obtain ⟨u, e⟩ := exec_call_next target (s := s) (by omega)
      have husp := exec_call_sp e
      exact (callChain_cons_next e rest).trans (ih (by omega))

/-- Settles O25: both bounds by induction on the targets, one slot less being free after each `CALL`. -/
theorem callsNestExactlySixteenDeep : Obligations.CallsNestExactlySixteenDeep :=
  fun _ _ => ⟨callChain_next, callChain_overflow⟩

/-! ### `SE` and `SNE` (R113, R114) -/

/-- `SE` skips on a register equal to the byte. -/
theorem exec_seByte (x : RegIx) (kk : Byte) (s : State) :
    exec (.seByte x kk) s = .next (skipIf (decide (s.reg x = kk)) s) := rfl

/-- `SNE` skips on a register other than the byte. -/
theorem exec_sneByte (x : RegIx) (kk : Byte) (s : State) :
    exec (.sneByte x kk) s = .next (skipIf (decide (s.reg x ≠ kk)) s) := by
  rw [exec, execSneByte, bne, beq_eq_decide, decide_not]

/-- Settles O26: the skip on equality writes `PC` alone. -/
theorem seSkipsOnEqual : Obligations.SeSkipsOnEqual := by
  intro x kk s
  have e := exec_seByte x kk s
  exact ⟨_, e, by simp only [skipIf_pc, decide_eq_true_eq], exec_keepsAllBut_writtenItems e⟩

/-- Settles O27: the skip on inequality writes `PC` alone, and `SE` on the same state goes the other way. -/
theorem sneSkipsOnDifferent : Obligations.SneSkipsOnDifferent := by
  intro x kk s
  have e := exec_sneByte x kk s
  refine ⟨_, e, by simp only [skipIf_pc, decide_eq_true_eq], exec_keepsAllBut_writtenItems e, _, exec_seByte x kk s, ?_⟩
  by_cases h : s.reg x = kk
  · simp [h]
  · simp [h]

end Sys2Proof.Machine

/-! # Proofs of the family 42_register_ops: `LD`, `ADD` on the registers, the index register and the delay timer -/

namespace Sys2Proof.Machine

/-! ### The additions (R126) -/

theorem add8_toNat (a b : Byte) : (add8 a b).toNat = (a.toNat + b.toNat) % 256 := BitVec.toNat_add a b

theorem add16_toNat (a b : Word) : (add16 a b).toNat = (a.toNat + b.toNat) % 65536 := BitVec.toNat_add a b

/-! ### One register written (R120 to R122) -/

theorem exec_ldByte (x : RegIx) (kk : Byte) (s : State) : exec (.ldByte x kk) s = .next (advance (s.setReg x kk)) := rfl

theorem exec_addByte (x : RegIx) (kk : Byte) (s : State) :
    exec (.addByte x kk) s = .next (advance (s.setReg x (add8 (s.reg x) kk))) := rfl

theorem exec_ldReg (x y : RegIx) (s : State) : exec (.ldReg x y) s = .next (advance (s.setReg x (s.reg y))) := rfl

theorem reg_advance_setReg_same (x : RegIx) (b : Byte) (s : State) : (advance (s.setReg x b)).reg x = b := by
  rw [reg_advance, reg_setReg_same]

theorem sameRegsBut_advance_setReg (x : RegIx) (b : Byte) (s : State) : SameRegsBut x s (advance (s.setReg x b)) := by
  intro y hy
  rw [reg_advance, reg_setReg_ne s hy]

/-- Settles O28: the byte is written to `V[x]` alone. -/
theorem ldByteLoadsTheImmediate : Obligations.LdByteLoadsTheImmediate := by
  intro x kk s
  have e := exec_ldByte x kk s
  exact ⟨_, e, reg_advance_setReg_same x kk s, sameRegsBut_advance_setReg x kk s, advance_pc _,
    exec_keepsAllBut_writtenItems e⟩

/-- Settles O29: the 8-bit sum is written to `V[x]` alone, so that `VF` takes no carry. -/
theorem addByteAddsModulo256WithoutFlag : Obligations.AddByteAddsModulo256WithoutFlag := by
  intro x kk s
  have e := exec_addByte x kk s
  refine ⟨_, e, ?_, sameRegsBut_advance_setReg x _ s, advance_pc _, exec_keepsAllBut_writtenItems e⟩
  rw [reg_advance_setReg_same, add8_toNat]

/-- Settles O30: the old `V[y]` is written to `V[x]` alone. -/
theorem ldRegCopiesTheRegister : Obligations.LdRegCopiesTheRegister := by
  intro x y s
  have e := exec_ldReg x y s
  exact ⟨_, e, reg_advance_setReg_same x _ s, sameRegsBut_advance_setReg x _ s, advance_pc _,
    exec_keepsAllBut_writtenItems e⟩

/-! ### The index register and the delay timer written (R123 to R125) -/

theorem exec_ldI (nnn : Addr) (s : State) : exec (.ldI nnn) s = .next (advance { s with i := zext16 nnn }) := rfl

theorem exec_ldDt (x : RegIx) (s : State) : exec (.ldDt x) s = .next (advance { s with dt := s.reg x }) := rfl

theorem exec_addI (x : RegIx) (s : State) :
    exec (.addI x) s = .next (advance { s with i := add16 s.i (zextReg x s) }) := rfl

/-- Settles O31: the zero extension keeps the address's number. -/
theorem ldILoadsTheAddress : Obligations.LdILoadsTheAddress := by
  intro nnn s
  have e := exec_ldI nnn s
  refine ⟨_, e, ?_, advance_pc _, exec_keepsAllBut_writtenItems e⟩
  rw [advance_i, zext16_toNat]

/-- Settles O32: the register is copied to the timer, and `PC` advances as after any other instruction (90_conflicts.md C7). -/
theorem ldDtSetsTheTimer : Obligations.LdDtSetsTheTimer := by
  intro x s
  have e := exec_ldDt x s
  exact ⟨_, e, advance_dt _, advance_pc _, exec_keepsAllBut_writtenItems e⟩

/-- Settles O33: the 16-bit sum with the zero-extended register is written to `I` alone. -/
theorem addIAddsModulo65536WithoutFlag : Obligations.AddIAddsModulo65536WithoutFlag := by
  intro x s
  have e := exec_addI x s
  refine ⟨_, e, ?_, advance_pc _, exec_keepsAllBut_writtenItems e⟩
  rw [advance_i, add16_toNat, zextReg_toNat]

end Sys2Proof.Machine

/-! # Proofs of the family 43_display: `CLS`, and what `DRW` draws once, twice, and not at all -/

namespace Sys2Proof.Machine

/-! ### `CLS` (R130) -/

theorem exec_cls (s : State) : exec .cls s = .next (advance { s with fb := Framebuffer.clear }) := rfl

/-- Settles O34: the cleared framebuffer, and the frame of its two written items. -/
theorem clsTurnsEveryPixelOff : Obligations.ClsTurnsEveryPixelOff := by
  intro s
  have e := exec_cls s
  exact ⟨_, e, pixel_clear, advance_pc _, exec_keepsAllBut_writtenItems e⟩

/-! ### When `DRW` draws (R133) -/

/-- `DRW` completes exactly when its sprite data lie in memory. -/
theorem exec_drw_next_iff {x y : RegIx} {n : Nat} {s : State} :
    (∃ t : State, exec (.drw x y n) s = .next t) ↔ SpriteInMemory s n := by
  rcases execDrw_cases x y n s with ⟨h, e⟩ | ⟨h0, hgt, e⟩
  · exact iff_of_true ⟨_, e⟩ h
  · refine iff_of_false (by simp [e]) ?_
    rintro (h | h) <;> omega

/-- Settles O36: data that leave memory are the faulting case of `DRW`. -/
theorem drwFaultsWhenDataLeaveMemory : Obligations.DrwFaultsWhenDataLeaveMemory := by
  intro x y n s h0 hgt
  rcases execDrw_cases x y n s with ⟨h | h, -⟩ | ⟨-, -, e⟩
  · omega
  · omega
  · exact e

/-! ### What a completed `DRW` draws (R134 to R138) -/

section
variable {x y : RegIx} {n : Nat} {s t : State}

/-- A completed `DRW` leaves the drawn framebuffer, the collision in `VF`, and `PC` at the next instruction. -/
theorem exec_drw_eq (h : exec (.drw x y n) s = .next t) :
    t = advance (setCollision (drawnBy x y n s).2 { s with fb := (drawnBy x y n s).1 }) := by
  rcases execDrw_cases x y n s with ⟨-, e⟩ | ⟨-, -, e⟩ <;> cases e.symm.trans h
  rfl

/-- The drawn framebuffer: the pixels that the sprite covers are inverted, the others stay (R135). -/
theorem drawnBy_pixel (hn : n ≤ 15) (c : Column) (r : Row) :
    (SpriteCovers s x y n c r → (drawnBy x y n s).1.pixel c r = !s.pixel c r) ∧
    (¬ SpriteCovers s x y n c r → (drawnBy x y n s).1.pixel c r = s.pixel c r) := by
  rw [← rowsCover_iff]
  exact drawRows_pixel _ _ _ _ (by rw [length_bytesAt]; omega) c r

theorem exec_drw_pixel_covered (h : exec (.drw x y n) s = .next t) (hn : n ≤ 15) {c : Column} {r : Row}
    (hcr : SpriteCovers s x y n c r) : t.pixel c r = !s.pixel c r := by
  rw [exec_drw_eq h]
  exact (drawnBy_pixel hn c r).1 hcr

theorem exec_drw_pixel_uncovered (h : exec (.drw x y n) s = .next t) (hn : n ≤ 15) {c : Column} {r : Row}
    (hcr : ¬ SpriteCovers s x y n c r) : t.pixel c r = s.pixel c r := by
  rw [exec_drw_eq h]
  exact (drawnBy_pixel hn c r).2 hcr

/-- The draw collides exactly when the sprite covers a pixel that was lit before it (R136). -/
theorem drawnBy_collision (hn : n ≤ 15) :
    (drawnBy x y n s).2 = true ↔ ∃ (c : Column) (r : Row), SpriteCovers s x y n c r ∧ s.pixel c r = true := by
  rw [drawnBy, drawRows_collision _ _ _ _ (by rw [length_bytesAt]; omega)]
  simp only [rowsCover_iff, State.pixel]

/-- `VF` takes the collision (R137). -/
theorem exec_drw_vf (h : exec (.drw x y n) s = .next t) : t.reg 15 = if (drawnBy x y n s).2 then 0x01#8 else 0x00#8 := by
  rw [exec_drw_eq h, reg_advance, reg_setCollision, if_pos rfl]

/-- `VF` is 0x01 after a draw over a lit pixel. -/
theorem exec_drw_vf_one (h : exec (.drw x y n) s = .next t) (hn : n ≤ 15)
    (hit : ∃ (c : Column) (r : Row), SpriteCovers s x y n c r ∧ s.pixel c r = true) : t.reg 15 = 0x01#8 := by
  rw [exec_drw_vf h, if_pos ((drawnBy_collision hn).mpr hit)]

/-- `VF` is 0x00 after a draw over no lit pixel. -/
theorem exec_drw_vf_zero (h : exec (.drw x y n) s = .next t) (hn : n ≤ 15)
    (miss : ¬ ∃ (c : Column) (r : Row), SpriteCovers s x y n c r ∧ s.pixel c r = true) : t.reg 15 = 0x00#8 := by
  rw [exec_drw_vf h, if_neg (mt (drawnBy_collision hn).mp miss)]

/-- `DRW` writes no register but `VF`. -/
theorem exec_drw_sameRegsBut (h : exec (.drw x y n) s = .next t) : SameRegsBut 15 s t := by
  intro z hz
  rw [exec_drw_eq h, reg_advance, reg_setCollision, if_neg hz]
  rfl

theorem exec_drw_pc (h : exec (.drw x y n) s = .next t) : t.pc = s.pc + 2#16 := by
  rw [exec_drw_eq h]
  rfl

end

/-- Settles O35: item by item what a completed `DRW` leaves. -/
theorem drwInvertsExactlyTheSpritePixels : Obligations.DrwInvertsExactlyTheSpritePixels := by
  intro x y n s hn hmem
  obtain ⟨t, e⟩ := exec_drw_next_iff.mpr hmem
  exact ⟨t, e, fun _ _ => exec_drw_pixel_covered e hn, fun _ _ => exec_drw_pixel_uncovered e hn, exec_drw_vf_one e hn,
    exec_drw_vf_zero e hn, exec_drw_sameRegsBut e, exec_drw_pc e, exec_keepsAllBut_writtenItems e⟩

/-! ### The same sprite drawn twice -/

/-- A draw whose position registers are not `VF` leaves a state whose sprite covers the same pixels. -/
theorem spriteCovers_after_drw {x y : RegIx} {n : Nat} {s t : State} (h : exec (.drw x y n) s = .next t) (hx : x ≠ 15)
    (hy : y ≠ 15) (c : Column) (r : Row) : SpriteCovers t x y n c r ↔ SpriteCovers s x y n c r := by
  have hregs := exec_drw_sameRegsBut h
  have frame := exec_keepsAllBut_writtenItems h
  have hi : t.i = s.i := frame .i (by simp [writtenItems])
  have hmem : ∀ a, t.mem.read a = s.mem.read a := frame .mem (by simp [writtenItems])
  simp only [SpriteCovers, hregs x hx, hregs y hy, hi, hmem]

/-- `DRW` leaves `I`, so the second of two equal draws completes like the first. -/
theorem exec_drw_again {x y : RegIx} {n : Nat} {s t : State} (h : exec (.drw x y n) s = .next t) :
    ∃ u : State, exec (.drw x y n) t = .next u := by
  have hi : t.i = s.i := exec_keepsAllBut_writtenItems h .i (by simp [writtenItems])
  have hs : SpriteInMemory s n := exec_drw_next_iff.mp ⟨t, h⟩
  exact exec_drw_next_iff.mpr (by rwa [SpriteInMemory, hi])

/-- Settles O37: both draws cover the same pixels; each of them is inverted twice, and is lit before the second draw exactly when it was off
before the first. -/
theorem drawingTwiceRestoresTheDisplay : Obligations.DrawingTwiceRestoresTheDisplay := by
  intro x y n s t hx hy hn first
  obtain ⟨u, second⟩ := exec_drw_again first
  have covers := spriteCovers_after_drw first hx hy
  have lit_iff : (∃ c r, SpriteCovers t x y n c r ∧ t.pixel c r = true) ↔
      ∃ c r, SpriteCovers s x y n c r ∧ s.pixel c r = false := by
    refine exists_congr fun c => exists_congr fun r => ?_
    rw [covers]
    exact and_congr_right fun hcr => by rw [exec_drw_pixel_covered first hn hcr, Bool.not_eq_true']
  refine ⟨u, second, fun c r => ?_, fun hit => exec_drw_vf_one second hn (lit_iff.mpr hit),
    fun miss => exec_drw_vf_zero second hn (mt lit_iff.mp miss)⟩
  by_cases hcr : SpriteCovers s x y n c r
  · rw [exec_drw_pixel_covered second hn ((covers c r).mpr hcr), exec_drw_pixel_covered first hn hcr, Bool.not_not]
  · rw [exec_drw_pixel_uncovered second hn (mt (covers c r).mp hcr), exec_drw_pixel_uncovered first hn hcr]

end Sys2Proof.Machine

/-! # Proofs of the family 44_keypad: `SKNP`, `LD Vx,K`, and what a key reads after a run of the host -/

namespace Sys2Proof.Machine

/-! ### `SKNP` (R150) -/

/-- When `V[x]` names a key, `SKNP` skips on that key being up. -/
theorem exec_sknp_next {x : RegIx} {k : KeyIx} {s : State} (hk : k.val = (s.reg x).toNat) :
    exec (.sknp x) s = .next (skipIf (!s.key k) s) := by
  rcases execSknp_cases x s with ⟨j, hj, e⟩ | ⟨hgt, -⟩
  · obtain rfl : j = k := Fin.ext (hj.trans hk.symm)
    exact e
  · omega

/-- Settles O38: the skip on the named key's level writes `PC` alone. -/
theorem sknpSkipsWhenTheKeyIsUp : Obligations.SknpSkipsWhenTheKeyIsUp := by
  intro x k s hk
  have e := exec_sknp_next hk
  exact ⟨_, e, by simp only [skipIf_pc, Bool.not_eq_true'], exec_keepsAllBut_writtenItems e⟩

/-- Settles O39: no key index is above 15, so the other case of `SKNP` is left. -/
theorem sknpFaultsAboveFifteen : Obligations.SknpFaultsAboveFifteen := by
  intro x s hgt
  rcases execSknp_cases x s with ⟨k, hk, -⟩ | ⟨-, e⟩
  · omega
  · exact e

/-! ### `LD Vx,K` (R151) -/

/-- With `k` the lowest pressed key, `LD Vx,K` loads `k`: no other key is lowest. -/
theorem exec_ldKey_lowest (x : RegIx) {k : KeyIx} {s : State} (hk : s.key k = true)
    (hlow : ∀ j : KeyIx, j < k → s.key j = false) :
    exec (.ldKey x) s = .next (advance (s.setReg x (zextKey k))) := by
  rcases execLdKey_cases x s with ⟨hup, -⟩ | ⟨j, hj, hlow', e⟩
  · exact absurd hk (by simp [hup k])
  · have hkj : k ≤ j := not_lt.mp fun hlt => by simp [hlow j hlt] at hj
    have hjk : j ≤ k := not_lt.mp fun hlt => by simp [hlow' k hlt] at hk
    obtain rfl : j = k := le_antisymm hjk hkj
    exact e

/-- Settles O40: the lowest pressed key is written to `V[x]` alone. -/
theorem ldKeyLoadsTheLowestPressedKey : Obligations.LdKeyLoadsTheLowestPressedKey := by
  intro x k s hk hlow
  have e := exec_ldKey_lowest x hk hlow
  refine ⟨_, e, ?_, sameRegsBut_advance_setReg x _ s, advance_pc _, exec_keepsAllBut_writtenItems e⟩
  rw [reg_advance_setReg_same, zextKey_toNat]

/-- Settles O41: with every key up there is no key to load, and the stall is left. -/
theorem ldKeyStallsWithoutAKey : Obligations.LdKeyStallsWithoutAKey := by
  intro x s hup
  rcases execLdKey_cases x s with ⟨-, e⟩ | ⟨k, hk, -⟩
  · exact e
  · cases (hup k).symm.trans hk

/-! ### The keys through a run of the host (R153) -/

/-- A load that succeeds writes memory alone, whatever form the memory was in (R162). -/
theorem loadOp_eq_ok {bytes : List Byte} {s t : State} (h : loadOp bytes s = .ok t) : ∃ m : Memory, t = { s with mem := m } := by
  unfold loadOp at h
  split at h
  · cases h
  · split at h <;> cases h
    exact ⟨_, rfl⟩

/-- A `load` writes no key, rejected or not. -/
theorem key_perform_load (bytes : List Byte) (s : State) (k : KeyIx) :
    ((HostOp.load bytes).perform s).1.key k = s.key k := by
  cases h : loadOp bytes s with
  | ok t =>
    obtain ⟨m, rfl⟩ := loadOp_eq_ok h
    simp only [HostOp.perform, h]
    rfl
  | error f => simp only [HostOp.perform, h]

/-- A `step` writes no key, whether it completes or faults. -/
theorem key_perform_step (s : State) (k : KeyIx) : (HostOp.step.perform s).1.key k = s.key k := by
  rcases perform_step s with ⟨t, h, e⟩ | ⟨f, -, e⟩ <;> rw [e]
  obtain ⟨-, hkeys⟩ := stepWritesNoMemoryAndNoKey s t h
  rw [State.key, hkeys, State.key]

/-- One operation of the host changes a key as the run of that operation alone says. -/
theorem key_perform (op : HostOp) (k : KeyIx) (s : State) : (op.perform s).1.key k = lastWritten k [op] (s.key k) := by
  cases op with
  | powerOn | reset => exact key_reset k
  | load bytes => exact key_perform_load bytes s k
  | step => exact key_perform_step s k
  | setKey k' pressed => exact key_setKeyOp k' k pressed s
  | tickTimer | getPixel c r | dump => rfl

/-- Settles O51, by induction on the operations: what the first one leaves in the key is where the rest of the run starts from. -/
theorem keyReadsWhatTheHostLastWrote : Obligations.KeyReadsWhatTheHostLastWrote := by
  intro ops k
  induction ops with
  | nil => exact fun s => rfl
  | cons op ops ih =>
    intro s
    calc (performAll ops (op.perform s).1).key k
      _ = lastWritten k ops ((op.perform s).1.key k) := ih (op.perform s).1
      _ = lastWritten k (op :: ops) (s.key k) := by rw [key_perform]; rfl

end Sys2Proof.Machine

/-! # Proofs of the family 45_host_operations: what each operation writes and returns, and what the delay timer reaches -/

namespace Sys2Proof.Machine

/-! ### The delay timer reaches nothing else (R164) -/

/-- The state with the delay timer put to `d`. -/
def State.withTimer (s : State) (d : Byte) : State := { s with dt := d }

/-- Agreeing on all but `DT` is differing by a value put into `DT`. -/
theorem agreeButTimer_iff {s s' : State} : AgreeButTimer s s' ↔ ∃ d : Byte, s' = s.withTimer d := by
  constructor
  · exact fun h => ⟨s'.dt, h.symm⟩
  · rintro ⟨d, rfl⟩
    rfl

/-- A push neither reads nor writes `DT`. -/
theorem pushSlot_withTimer (a : Word) (s : State) (d : Byte) :
    pushSlot a (s.withTimer d) = (pushSlot a s).map (·.withTimer d) := by
  by_cases h : s.sp.val < 16
  · have h' : (s.withTimer d).sp.val < 16 := h
    simp only [pushSlot, dif_pos h, dif_pos h', Option.map_some]
    rfl
  · have h' : ¬ (s.withTimer d).sp.val < 16 := h
    simp only [pushSlot, dif_neg h, dif_neg h', Option.map_none]

/-- Whatever `DT` holds, an instruction completes with the same state but for `DT`, or raises the same fault. -/
theorem exec_withTimer_cases (i : Instr) (s : State) (d : Byte) :
    (∃ (t : State) (d' : Byte), exec i s = .next t ∧ exec i (s.withTimer d) = .next (t.withTimer d')) ∨
    (∃ f : Fault, exec i s = .fault f ∧ exec i (s.withTimer d) = .fault f) := by
  cases i with
  | ret =>
    obtain ⟨empty, tooHigh⟩ := retFaultsOnEmptyStackOrTopTooHigh (s.withTimer d)
    rcases execRet_cases s with ⟨h, e⟩ | ⟨k, hk, ⟨hgt, e⟩ | ⟨hle, e⟩⟩
    · exact .inr ⟨_, e, empty h⟩
    · exact .inr ⟨_, e, tooHigh k hk hgt⟩
    · exact .inl ⟨_, d, e, exec_ret_next hk hle⟩
  | call nnn =>
    have push : pushSlot (s.withTimer d).pc (s.withTimer d) = (pushSlot s.pc s).map (·.withTimer d) :=
      pushSlot_withTimer s.pc s d
    cases h : pushSlot s.pc s with
    | none =>
      rw [h, Option.map_none] at push
      exact .inr ⟨.stackOverflow, by simp only [exec, execCall, h, raise], by simp only [exec, execCall, push, raise]⟩
    | some t =>
      rw [h, Option.map_some] at push
      exact .inl ⟨jumpTo (zext16 nnn) t, d, by simp only [exec, execCall, h], by simp only [exec, execCall, push]; rfl⟩
  | drw x y n =>
    rcases execDrw_cases x y n s with ⟨h, e⟩ | ⟨hn, hgt, e⟩
    · obtain ⟨t, e'⟩ := (exec_drw_next_iff (x := x) (y := y) (s := s.withTimer d)).mpr h
      exact .inl ⟨_, d, e, by rw [e', exec_drw_eq e']; rfl⟩
    · exact .inr ⟨_, e, drwFaultsWhenDataLeaveMemory x y n (s.withTimer d) hn hgt⟩
  | sknp x =>
    rcases execSknp_cases x s with ⟨k, hk, e⟩ | ⟨hgt, e⟩
    · exact .inl ⟨_, d, e, exec_sknp_next hk⟩
    · exact .inr ⟨_, e, sknpFaultsAboveFifteen x (s.withTimer d) hgt⟩
  | ldKey x =>
    rcases execLdKey_cases x s with ⟨hup, e⟩ | ⟨k, hk, hlow, e⟩
    · exact .inl ⟨_, d, e, ldKeyStallsWithoutAKey x (s.withTimer d) hup⟩
    · exact .inl ⟨_, d, e, exec_ldKey_lowest x hk hlow⟩
  | ldDt x => exact .inl ⟨_, s.reg x, rfl, rfl⟩
  | _ => exact .inl ⟨_, d, rfl, rfl⟩

/-- Whatever `DT` holds, the step completes with the same state but for `DT`, or raises the same fault: the fetch reads `PC` and
memory, the decoder the word. -/
theorem step_withTimer_cases (s : State) (d : Byte) :
    (∃ (t : State) (d' : Byte), step s = .next t ∧ step (s.withTimer d) = .next (t.withTimer d')) ∨
    (∃ f : Fault, step s = .fault f ∧ step (s.withTimer d) = .fault f) := by
  have sameFetch : fetch (s.withTimer d) = fetch s := rfl
  cases hw : fetch s with
  | error f => exact .inr ⟨f, by simp only [step, hw, raise], by simp only [step, sameFetch, hw, raise]⟩
  | ok w =>
    cases hi : decodeWord w with
    | error e =>
      exact .inr ⟨.unknownInstruction w, by simp only [step, hw, hi, raise], by simp only [step, sameFetch, hw, hi, raise]⟩
    | ok i => simpa only [step, sameFetch, hw, hi] using exec_withTimer_cases i s d

/-- A load neither reads nor writes `DT`. -/
theorem loadOp_withTimer (bytes : List Byte) (s : State) (d : Byte) :
    loadOp bytes (s.withTimer d) = (loadOp bytes s).map (·.withTimer d) := by
  have sameMem : (s.withTimer d).mem = s.mem := rfl
  simp only [loadOp, sameMem]
  split
  · rfl
  · cases writeBytes Config.origin bytes s.mem <;> rfl

/-- The one difference `DT` makes to an operation is in the `DT` after it. -/
theorem perform_withTimer (op : HostOp) (s : State) (d : Byte) :
    ∃ d' : Byte, op.perform (s.withTimer d) = ((op.perform s).1.withTimer d', (op.perform s).2) := by
  cases op with
  | powerOn | reset => exact ⟨State.reset.dt, rfl⟩
  | load bytes =>
    refine ⟨d, ?_⟩
    simp only [HostOp.perform, loadOp_withTimer]
    cases loadOp bytes s <;> rfl
  | step =>
    rcases step_withTimer_cases s d with ⟨t, d', e, e'⟩ | ⟨f, e, e'⟩
    · exact ⟨d', by simp only [HostOp.perform, e, e']⟩
    · exact ⟨d, by simp only [HostOp.perform, e, e']⟩
  | tickTimer => exact ⟨(tickOp (s.withTimer d)).dt, rfl⟩
  | setKey k pressed | getPixel c r | dump => exact ⟨d, rfl⟩

/-- Settles O17: states that agree on all but `DT` differ by a value put into `DT`, and so do the states after the operation. -/
theorem delayTimerInfluencesNothingElse : Obligations.DelayTimerInfluencesNothingElse := by
  intro op s s' h
  obtain ⟨d, rfl⟩ := agreeButTimer_iff.mp h
  obtain ⟨d', e⟩ := perform_withTimer op s d
  rw [e]
  exact ⟨agreeButTimer_iff.mpr ⟨d', rfl⟩, rfl⟩

/-! ### `load` (R162) -/

/-- Settles O47: the load is not rejected, and its reads are the image at the image's addresses and the old memory elsewhere. -/
theorem loadWritesTheImageAndNothingElse : Obligations.LoadWritesTheImageAndNothingElse := by
  intro bytes s hs hlen
  rcases loadOp_cases bytes s hs with ⟨hlong, -⟩ | ⟨-, m, e, -, hread⟩
  · exact absurd hlen (not_le.mpr hlong)
  · simp only [Config.origin] at hread
    refine ⟨{ s with mem := m }, by simp only [HostOp.perform, e], fun k hk => ?_, fun a ha => ?_,
      keepsAllBut_of_fields (by simp)⟩
    · rw [hread, if_pos (by omega), Nat.add_sub_cancel_left, List.getD_eq_getElem _ _ hk]
    · rw [hread, if_neg (by omega)]

/-! ### `tick_timer` (R164) -/

/-- A tick takes `DT` one down in the natural numbers, where one below zero is zero. -/
theorem tickOp_dt_toNat (s : State) : (tickOp s).dt.toNat = s.dt.toNat - 1 := by
  rw [tickOp_dt]
  split
  · rename_i h
    simp [h]
  · bv_omega

/-- Settles O49: of the fields `tickOp` writes `DT` alone. -/
theorem tickCountsDownToZero : Obligations.TickCountsDownToZero :=
  fun s => ⟨tickOp s, rfl, tickOp_dt_toNat s, keepsAllBut_of_fields (by simp)⟩

/-! ### `set_key` (R165) -/

/-- Settles O50, by what a key reads after `setKeyOp`; of the fields it writes the keys alone. -/
theorem setKeyWritesOneKey : Obligations.SetKeyWritesOneKey := by
  intro k pressed s
  refine ⟨setKeyOp k pressed s, rfl, ?_, fun j hj => ?_, keepsAllBut_of_fields (by simp)⟩
  · rw [key_setKeyOp, if_pos rfl]
  · rw [key_setKeyOp, if_neg hj.symm]

/-! ### `get_pixel` and `dump` (R166, R167) -/

/-- The frame is row-major: 64 pixels to a row, so the quotient of the index is the row and the remainder the column (R29). -/
theorem frame_getElem?_row_major (s : State) (c : Column) (r : Row) :
    (frame s)[r.val * 64 + c.val]? = some (s.pixel c r) := by
  have hlt : r.val * 64 + c.val < 32 * 64 := by omega
  have hrow : (r.val * 64 + c.val) / 64 = r.val := by omega
  have hcol : (r.val * 64 + c.val) % 64 = c.val := by omega
  rw [Vector.getElem?_eq_getElem hlt]
  simp only [frame, Vector.getElem_flatten, hrow, hcol]
  rfl

/-- Settles O56: both operations hand back the state they were given, with what they read of it. -/
theorem observersChangeNothing : Obligations.ObserversChangeNothing :=
  ⟨fun c r s => ⟨rfl, frame_getElem?_row_major s c r⟩, fun s => ⟨dumpOp s, rfl, rfl, rfl, fun _ => rfl, fun _ => rfl⟩⟩

end Sys2Proof.Machine


/-! # Proofs of the family 60_exceptions: the fault table, what a fault leaves, and how long it lasts -/

namespace Sys2Proof.Machine

/-! ### The table of faults (R181, R187) -/

/-- The rows of R181 that instruction `i` meets at execute: it raises `f` from `s`. -/
def ExecFaultRow : Instr → State → Fault → Prop
  | .ret, s, f =>
    (s.sp.val = 0 ∧ f = .stackUnderflow) ∨
      ∃ k : SlotIx, k.val + 1 = s.sp.val ∧ (s.slot k).toNat ≥ 0xFFFE ∧ f = .boundsViolation (s.slot k).toNat
  | .call _, s, f => s.sp.val = 16 ∧ f = .stackOverflow
  | .drw _ _ n, s, f =>
    0 < n ∧ s.i.toNat + n - 1 > 0xFFF ∧ f = .boundsViolation (if s.i.toNat > 0xFFF then s.i.toNat else 0x1000)
  | .sknp x, s, f => (s.reg x).toNat > 0x0F ∧ f = .boundsViolation (s.reg x).toNat
  | _, _, _ => False

/-- An instruction that faults meets one of its rows: each case of the instruction that answers a fault is one of them. -/
theorem execFaultRow_of_exec {i : Instr} {s : State} {f : Fault} (h : exec i s = .fault f) : ExecFaultRow i s f := by
  cases i with
  | ret =>
    rcases execRet_cases s with ⟨h0, e⟩ | ⟨k, hk, ⟨hgt, e⟩ | ⟨-, e⟩⟩ <;> cases e.symm.trans h
    · exact .inl ⟨h0, rfl⟩
    · exact .inr ⟨k, hk, hgt, rfl⟩
  | call nnn =>
    rcases execCall_cases nnn s with ⟨hfull, e⟩ | ⟨-, t, e, -⟩ <;> cases e.symm.trans h
    exact ⟨hfull, rfl⟩
  | drw x y n =>
    rcases execDrw_cases x y n s with ⟨-, e⟩ | ⟨h0, hgt, e⟩ <;> cases e.symm.trans h
    exact ⟨h0, hgt, rfl⟩
  | sknp x =>
    rcases execSknp_cases x s with ⟨k, -, e⟩ | ⟨hgt, e⟩ <;> cases e.symm.trans h
    exact ⟨hgt, rfl⟩
  | ldKey x => rcases execLdKey_cases x s with ⟨-, e⟩ | ⟨k, -, -, e⟩ <;> cases e.symm.trans h
  | _ => cases h

/-- An instruction that meets one of its rows faults with the row's value. -/
theorem exec_of_execFaultRow {i : Instr} {s : State} {f : Fault} (h : ExecFaultRow i s f) : exec i s = .fault f := by
  cases i with
  | ret =>
    obtain ⟨empty, tooHigh⟩ := retFaultsOnEmptyStackOrTopTooHigh s
    rcases h with ⟨h0, rfl⟩ | ⟨k, hk, hge, rfl⟩
    · exact empty h0
    · exact tooHigh k hk hge
  | call nnn =>
    obtain ⟨hfull, rfl⟩ := h
    exact exec_call_full nnn hfull
  | drw x y n =>
    obtain ⟨h0, hgt, rfl⟩ := h
    exact drwFaultsWhenDataLeaveMemory x y n s h0 hgt
  | sknp x =>
    obtain ⟨hgt, rfl⟩ := h
    exact sknpFaultsAboveFifteen x s hgt
  | _ => exact h.elim

/-- A step above 0xFFE faults at the fetch (R91). -/
theorem step_fault_fetch {s : State} (hpc : s.pc.toNat > 0xFFE) :
    step s = .fault (.boundsViolation (if s.pc.toNat > 0xFFF then s.pc.toNat else 0x1000)) := by
  rcases step_cases s with ⟨-, e⟩ | ⟨hle, -⟩ | ⟨hle, -⟩
  · exact e
  · omega
  · omega

/-- A step on a fetchable word that selects no row faults at the decode (R92, R185). -/
theorem step_fault_unknown {s : State} (hpc : s.pc.toNat ≤ 0xFFE)
    (hno : ∀ row ∈ opcodeTable, row.selects (wordAtPc s) = false) :
    step s = .fault (.unknownInstruction (wordAtPc s)) := by
  have hd := (decodeWord_error_iff (wordAtPc s)).mpr hno
  rcases step_cases s with ⟨hgt, -⟩ | ⟨-, -, e⟩ | ⟨-, i, hi, -⟩
  · omega
  · exact e
  · cases hd.symm.trans hi

/-- The rows of R181 by the part of the step that raises them, in R187's order: fetch, decode, execute. -/
theorem step_fault_iff (s : State) (f : Fault) : step s = .fault f ↔
    (s.pc.toNat > 0xFFE ∧ f = .boundsViolation (if s.pc.toNat > 0xFFF then s.pc.toNat else 0x1000)) ∨
    (s.pc.toNat ≤ 0xFFE ∧
      (((∀ row ∈ opcodeTable, row.selects (wordAtPc s) = false) ∧ f = .unknownInstruction (wordAtPc s)) ∨
        ∃ i, decodeWord (wordAtPc s) = .ok i ∧ ExecFaultRow i s f)) := by
  constructor
  · intro h
    rcases step_cases s with ⟨hpc, e⟩ | ⟨hpc, ⟨d, hd⟩, e⟩ | ⟨hpc, i, hi, e⟩
    · cases e.symm.trans h
      exact .inl ⟨hpc, rfl⟩
    · cases e.symm.trans h
      cases decodeWord_error hd
      exact .inr ⟨hpc, .inl ⟨(decodeWord_error_iff _).mp hd, rfl⟩⟩
    · exact .inr ⟨hpc, .inr ⟨i, hi, execFaultRow_of_exec (e.symm.trans h)⟩⟩
  · rintro (⟨hpc, rfl⟩ | ⟨hpc, ⟨hno, rfl⟩ | ⟨i, hi, hrow⟩⟩)
    · exact step_fault_fetch hpc
    · exact step_fault_unknown hpc hno
    · exact (step_eq_exec hpc hi).trans (exec_of_execFaultRow hrow)

/-- The rows of execute, written out by instruction. -/
theorem exists_execFaultRow_iff {s : State} {f : Fault} {w : Word} :
    (∃ i, decodeWord w = .ok i ∧ ExecFaultRow i s f) ↔
      (∃ (x y : RegIx) (n : Nat), decodeWord w = .ok (.drw x y n) ∧ ExecFaultRow (.drw x y n) s f) ∨
      (∃ x : RegIx, decodeWord w = .ok (.sknp x) ∧ ExecFaultRow (.sknp x) s f) ∨
      (decodeWord w = .ok .ret ∧ ExecFaultRow .ret s f) ∨
      (∃ nnn : Addr, decodeWord w = .ok (.call nnn) ∧ ExecFaultRow (.call nnn) s f) := by
  constructor
  · rintro ⟨i, hi, hrow⟩
    cases i with
    | drw x y n => exact .inl ⟨x, y, n, hi, hrow⟩
    | sknp x => exact .inr (.inl ⟨x, hi, hrow⟩)
    | ret => exact .inr (.inr (.inl ⟨hi, hrow⟩))
    | call nnn => exact .inr (.inr (.inr ⟨nnn, hi, hrow⟩))
    | _ => exact hrow.elim
  · rintro (⟨x, y, n, h⟩ | ⟨x, h⟩ | h | ⟨nnn, h⟩)
    · exact ⟨.drw x y n, h⟩
    · exact ⟨.sknp x, h⟩
    · exact ⟨.ret, h⟩
    · exact ⟨.call nnn, h⟩

/-- Settles O9: the rows of fetch, decode and execute; those of `RET` stand in the statement as two. -/
theorem stepFaultsExactlyByTheTable : Obligations.StepFaultsExactlyByTheTable := by
  intro s f
  have ret_rows : (decodeWord (wordAtPc s) = .ok .ret ∧ ExecFaultRow .ret s f) ↔
      (∃ k : SlotIx, decodeWord (wordAtPc s) = .ok .ret ∧ k.val + 1 = s.sp.val ∧ (s.slot k).toNat ≥ 0xFFFE ∧
        f = .boundsViolation (s.slot k).toNat) ∨
      (decodeWord (wordAtPc s) = .ok .ret ∧ s.sp.val = 0 ∧ f = .stackUnderflow) := by
    rw [ExecFaultRow, and_or_left, or_comm, ← exists_and_left]
  rw [step_fault_iff, exists_execFaultRow_iff, ret_rows, or_assoc]
  rfl

/-! ### A fault changes nothing (R95, R183 to R186, R188) -/

/-- A step that faults hands the fault to the host and the state back as it was. -/
theorem perform_step_fault {s : State} {f : Fault} (h : step s = .fault f) : HostOp.step.perform s = (s, .fault f) := by
  rcases perform_step s with ⟨t, e, -⟩ | ⟨g, e, hp⟩ <;> cases e.symm.trans h
  exact hp

/-- Settles O8: the fault of the decode. -/
theorem unknownWordFaultsAndChangesNothing : Obligations.UnknownWordFaultsAndChangesNothing :=
  fun _ hpc hno => perform_step_fault (step_fault_unknown hpc hno)

/-- Settles O20: 0x00EE is `RET`, whose case of an empty stack underflows. -/
theorem retOnEmptyStackUnderflowsAndChangesNothing : Obligations.RetOnEmptyStackUnderflowsAndChangesNothing := by
  intro s hpc hw h0
  have hi : decodeWord (wordAtPc s) = .ok .ret := by rw [hw]; rfl
  obtain ⟨underflow, -⟩ := retFaultsOnEmptyStackOrTopTooHigh s
  exact perform_step_fault ((step_eq_exec hpc hi).trans (underflow h0))

/-- Settles O23: 0x2000 + nnn is the number of `CALL nnn`, which overflows on a full stack. -/
theorem callOnFullStackOverflowsAndChangesNothing : Obligations.CallOnFullStackOverflowsAndChangesNothing := by
  intro nnn s hpc hw hfull
  have hi : decodeWord (wordAtPc s) = .ok (.call nnn) := decodeWord_of_toNat_eq_encodeNat rfl hw
  exact perform_step_fault ((step_eq_exec hpc hi).trans (exec_call_full nnn hfull))

/-- Settles O48: the length is tested before any byte is written, with the whole memory then still the old one. -/
theorem loadTooLargeWritesNothing : Obligations.LoadTooLargeWritesNothing := by
  intro bytes s hlen
  have rejected : loadOp bytes s = .error (.loadTooLarge bytes.length) := if_pos hlen
  exact ⟨bytes.length, by simp only [HostOp.perform, rejected]⟩

/-! ### A fault lasts (R97, R189) -/

/-- No row of the fault table reads `DT`, `FB` or the keys, so a step that faults does so whatever these hold. -/
theorem step_fault_of_other_dt_fb_keys {s : State} {f : Fault} (h : step s = .fault f) (dt : Byte) (fb : Framebuffer)
    (keys : Vector Bool 16) : step { s with dt := dt, fb := fb, keys := keys } = .fault f :=
  (stepFaultsExactlyByTheTable { s with dt := dt, fb := fb, keys := keys } f).mpr ((stepFaultsExactlyByTheTable s f).mp h)

/-- One operation short of power-on, reset and load leaves the next step to fault as before. -/
theorem step_fault_after_perform {op : HostOp} {s : State} {f : Fault}
    (hop : op ≠ .powerOn ∧ op ≠ .reset ∧ ∀ bytes, op ≠ .load bytes) (h : step s = .fault f) :
    step (op.perform s).1 = .fault f := by
  obtain ⟨hpower, hreset, hload⟩ := hop
  cases op with
  | powerOn => exact absurd rfl hpower
  | reset => exact absurd rfl hreset
  | load bytes => exact absurd rfl (hload bytes)
  | step => rwa [perform_step_fault h]
  | tickTimer => exact step_fault_of_other_dt_fb_keys h (tickOp s).dt s.fb s.keys
  | setKey k pressed => exact step_fault_of_other_dt_fb_keys h s.dt s.fb (setKeyOp k pressed s).keys
  | getPixel c r | dump => exact h

/-- Settles O16, by induction on the operations: each of them leaves the next step to fault as before. -/
theorem faultPersistsUntilResetOrLoad : Obligations.FaultPersistsUntilResetOrLoad := by
  intro ops
  induction ops with
  | nil => exact fun s f _ h => h
  | cons op ops ih =>
    intro s f hops h
    obtain ⟨hop, hrest⟩ := List.forall_mem_cons.mp hops
    exact ih (op.perform s).1 f hrest (step_fault_after_perform hop h)

end Sys2Proof.Machine

/-! # Proofs of the family 70_reset_and_hazards: what `reset` writes, the first fetch, and the first step with and without a load -/

namespace Sys2Proof.Machine

/-! ### `reset` (R211) -/

/-- Settles O52: `resetOp` is the power-on state with the old memory put in it. -/
theorem resetClearsAllButMemory : Obligations.ResetClearsAllButMemory :=
  fun s => ⟨resetOp s, rfl, fun _ => rfl, keepsAllBut_of_fields (by simp)⟩

/-! ### The first fetch (R212) -/

/-- With `PC` at the origin the fetch reads the origin's two bytes. -/
theorem fetch_at_origin {s : State} (hpc : s.pc = 0x0200#16) :
    fetch s = .ok (BitVec.ofNat 16 ((s.mem.read 0x200).toNat * 256 + (s.mem.read 0x201).toNat)) := by
  have hnat : s.pc.toNat = 0x200 := by rw [hpc]; rfl
  rcases fetch_cases s with ⟨-, e⟩ | ⟨hgt, -⟩
  · rw [e, wordAtPc, hnat]
  · omega

/-- Settles O53: power-on and `reset` alike put `PC` at the origin. -/
theorem firstFetchIsAtTheOrigin : Obligations.FirstFetchIsAtTheOrigin := by
  rintro op s (rfl | rfl)
  · exact fetch_at_origin rfl
  · exact fetch_at_origin rfl

/-! ### The first step (R213) -/

/-- Settles O54: memory after power-on reads zero at `PC`, and no row of the opcode table selects 0x0000. -/
theorem unloadedMachineFaultsAtOnce : Obligations.UnloadedMachineFaultsAtOnce :=
  unknownWordFaultsAndChangesNothing State.reset (by decide) (by decide)

/-- A load that returns `Ok` had an image that fits: it is in memory from the origin upward, and only memory is written (R162). -/
theorem perform_load_ok {bytes : List Byte} {s t : State} (hs : s.mem.wf) (h : (HostOp.load bytes).perform s = (t, .ok)) :
    (∀ (k : Nat) (hk : k < bytes.length), t.mem.read (0x200 + k) = bytes[k]) ∧ KeepsAllBut [.mem] s t := by
  rcases Nat.lt_or_ge 3584 bytes.length with hlong | hfits
  · obtain ⟨_, rejected⟩ := loadTooLargeWritesNothing bytes s hlong
    cases rejected.symm.trans h
  · obtain ⟨u, loaded, image, -, kept⟩ := loadWritesTheImageAndNothingElse bytes s hs hfits
    cases loaded.symm.trans h
    exact ⟨image, kept⟩

/-- A step whose two bytes at `PC` are those of a well-formed instruction executes it. -/
theorem step_of_encodeBytes_at_pc {i : Instr} {s : State} (hi : i.wellFormed = true) (hpc : s.pc.toNat ≤ 0xFFE)
    (h : [s.mem.read s.pc.toNat, s.mem.read (s.pc.toNat + 1)] = encodeBytes i) : step s = exec i s :=
  step_eq_exec hpc (decodeWord_wordAtPc (h ▸ decodeOfEncodeIsTheInstruction i [] hi))

/-- Settles O55: the load leaves `PC` where `reset` put it, at the origin, and puts the instruction's two bytes there. -/
theorem loadedInstructionRunsFirst : Obligations.LoadedInstructionRunsFirst := by
  intro i rest s t hi hs h
  obtain ⟨image, kept⟩ := perform_load_ok (s := resetOp s) hs h
  have hpc : t.pc.toNat = 0x200 := congrArg BitVec.toNat (kept .pc (by decide))
  refine step_of_encodeBytes_at_pc hi (by omega) ?_
  have first : t.mem.read 0x200 = (encode i).extractLsb' 8 8 := image 0 (by simp [encodeBytes, bytesOfWord])
  have second : t.mem.read 0x201 = (encode i).extractLsb' 0 8 := image 1 (by simp [encodeBytes, bytesOfWord])
  rw [hpc, first, second, encodeBytes, bytesOfWord]

end Sys2Proof.Machine
